-- ==== Sys2Proof/Word.lean ====
section
/-! DEFINITION. The two word types of the block: bytes of the buffers and 32-bit registers. -/

namespace Sys2Proof

/-- A byte of a buffer or of a byte sequence (spec 00_scope.md R15). -/
abbrev Byte := BitVec 8

/-- A register or a command word: 32 bits (spec 10_state.md R23, 30_encoding.md R90). -/
abbrev Word := BitVec 32

end Sys2Proof
end

