-- ==== Sys2Proof/Syntax.lean ====
section
/-! DEFINITION. The commands of the block: one constructor per row of spec/opcode_table.json. -/

namespace Sys2Proof

/-- The command set (spec 30_encoding.md R94). No command has an operand field (R92); the illegal row keeps the word
itself, because `LAST_CMD` does (R96). -/
inductive Instr where
  /-- `ENC`, Base58 encode (42_codec.md R150). -/
  | enc
  /-- `DEC`, Base58 decode (42_codec.md R152). -/
  | dec
  /-- `CENC`, Base58Check encode (43_check.md R176). -/
  | cenc
  /-- `CDEC`, Base58Check decode (43_check.md R178). -/
  | cdec
  /-- `TODIG`, bytes to base-58 digits (40_converter.md R111). -/
  | todig
  /-- `FROMDIG`, base-58 digits to bytes (40_converter.md R113). -/
  | fromdig
  /-- `MAP`, digits to symbols (41_mapper.md R134). -/
  | map
  /-- `UNMAP`, symbols to digits (41_mapper.md R136). -/
  | unmap
  /-- `CSUM`, checksum of a payload (43_check.md R171). -/
  | csum
  /-- `FRAME`, append the checksum (43_check.md R172). -/
  | frame
  /-- `UNFRAME`, verify and strip the checksum (43_check.md R174). -/
  | unframe
  /-- Every word that is no command (30_encoding.md R96). -/
  | illegal (word : Word)
  deriving DecidableEq, Repr

/-- Is it one of the eleven legal commands (spec 30_encoding.md R95)? -/
def Instr.isCommand : Instr → Bool
  | .enc | .dec | .cenc | .cdec | .todig | .fromdig | .map | .unmap | .csum | .frame | .unframe => true
  | .illegal _ => false

end Sys2Proof
end

