-- ==== Sys2Proof/WellFormed.lean ====
section
/-! DEFINITION. Which terms of the syntax stand for a command word: the illegal row holds no legal word. -/

namespace Sys2Proof

/-- The words of the eleven commands (spec 30_encoding.md R94): opcode 1 to 0xB and a zero reserved field. -/
def isCommandWord (w : Word) : Bool :=
  [0x1#32, 0x2#32, 0x3#32, 0x4#32, 0x5#32, 0x6#32, 0x7#32, 0x8#32, 0x9#32, 0xA#32, 0xB#32].contains w

/-- A term is well formed when it is a command, or the illegal row with a word that is no command
(spec 30_encoding.md R95, R96). -/
def Instr.wellFormed : Instr → Bool
  | .enc | .dec | .cenc | .cdec | .todig | .fromdig | .map | .unmap | .csum | .frame | .unframe => true
  | .illegal w => !isCommandWord w

end Sys2Proof
end

