-- ==== Sys2Proof/Decode.lean ====
section
/-! DEFINITION. The decoder of command words, total on any word and on any bytes, and the encoder. -/

namespace Sys2Proof

/-- Field `OP`, bits 3:0 (spec 30_encoding.md R91). -/
def opField (w : Word) : BitVec 4 := w.extractLsb' 0 4

/-- Field `RSV`, bits 31:4, which must be zero (spec 30_encoding.md R91). -/
def rsvField (w : Word) : BitVec 28 := w.extractLsb' 4 28

/-- `decodeCmd` (spec 30_encoding.md R95): a non-zero reserved field or a reserved opcode is the illegal row. -/
def decodeWord (w : Word) : Instr :=
  if rsvField w ≠ 0 then .illegal w
  else
    match (opField w).toNat with
    | 0x1 => .enc
    | 0x2 => .dec
    | 0x3 => .cenc
    | 0x4 => .cdec
    | 0x5 => .todig
    | 0x6 => .fromdig
    | 0x7 => .map
    | 0x8 => .unmap
    | 0x9 => .csum
    | 0xA => .frame
    | 0xB => .unframe
    | _ => .illegal w

/-- The word carried by four bytes on the bus lanes: byte `j` on data bits `[8j+7:8j]` (spec 20_memory.md R64). -/
def wordOfLanes (b0 b1 b2 b3 : Byte) : Word := b3 ++ b2 ++ b1 ++ b0

/-- The four lane bytes of a word, the lowest address first (spec 20_memory.md R64). -/
def lanesOfWord (w : Word) : List Byte :=
  [w.extractLsb' 0 8, w.extractLsb' 8 8, w.extractLsb' 16 8, w.extractLsb' 24 8]

/-- What the decoder answers on a list of bytes. -/
inductive Decoded where
  /-- The command word at the head of the bytes, and the bytes after it. -/
  | command (i : Instr) (rest : List Byte)
  /-- Fewer than four bytes: no CMD32 word (spec 30_encoding.md R90 has no shorter form). -/
  | truncated
  deriving DecidableEq, Repr

/-- The decoder on bytes: exactly four bytes make a command word (spec 30_encoding.md R90). -/
def decodeBytes : List Byte → Decoded
  | b0 :: b1 :: b2 :: b3 :: rest => .command (decodeWord (wordOfLanes b0 b1 b2 b3)) rest
  | _ => .truncated

/-- The command word of an instruction, from the opcode map (spec 30_encoding.md R94). -/
def encode : Instr → Word
  | .enc => 0x00000001#32
  | .dec => 0x00000002#32
  | .cenc => 0x00000003#32
  | .cdec => 0x00000004#32
  | .todig => 0x00000005#32
  | .fromdig => 0x00000006#32
  | .map => 0x00000007#32
  | .unmap => 0x00000008#32
  | .csum => 0x00000009#32
  | .frame => 0x0000000A#32
  | .unframe => 0x0000000B#32
  | .illegal w => w

/-- The bytes of an instruction as the bus carries them. -/
def encodeBytes (i : Instr) : List Byte := lanesOfWord (encode i)

/-- What the decoder reads from an instruction whose bits are `w`, numbered as spec/opcode_table.json numbers them:
its four lane bytes given to `decodeBytes`. There is no other length (spec 30_encoding.md R90), so a form of more
than 32 bits, or a number that does not fit one word, is no command. -/
def decodeTableWord (nbits w : Nat) : Option Instr :=
  if nbits ≤ 32 ∧ w < 2 ^ 32 then
    match decodeBytes (lanesOfWord (BitVec.ofNat 32 w)) with
    | .command i [] => some i
    | .command _ (_ :: _) => none
    | .truncated => none
  else none

end Sys2Proof
end

