-- ==== Sys2Proof/Config.lean ====
section
/-! DEFINITION. What an implementation fixes (`BASE`, `IN_CAP`), the hash function, and the source of free values. -/

namespace Sys2Proof

/-- The open parameters of a block (spec 00_scope.md R8, R9). The two fields can hold exactly the admitted values:
`BASE = 0x4000 * region` and `IN_CAP = 4 * (inWords + 1)`, a multiple of 4 from 4 to 4096. -/
structure Config where
  /-- `BASE` in units of the block's 16 KiB region (spec 00_scope.md R8). -/
  region : Nat
  /-- `IN_CAP` in 32-bit words, less one (spec 00_scope.md R9). -/
  inWords : Fin 1024
  deriving DecidableEq, Repr

/-- The reference configuration `IN_CAP = 256` (spec 00_scope.md R9). DESIGN CHOICE, unsafe: `BASE = 0`, which the
spec leaves to the platform (R8; log 2). Every statement holds for every configuration. -/
def Config.reference : Config := { region := 0, inWords := 63 }

/-- Free values: the byte a read of an unspecified byte returns at draw number `n` (spec 10_state.md R41, R46;
93_implementation_defined.md U1 to U4). DESIGN CHOICE, safe: no body, so no proof knows a value (log 4). -/
opaque Config.freeByte (n : Nat) : Byte

/-- `HASH256`, the open configuration function: any function to exactly 32 bytes (spec 00_scope.md R12). It has no
body, so nothing but determinism and the output length can be proved of it (log 5). -/
opaque Config.hash256 (message : List Byte) : Vector Byte 32

end Sys2Proof
end

