-- ==== Sys2Proof/Machine/State.lean ====
section
/-! DEFINITION. The state of the block, the reasons a step can stop, and the state after reset. -/

namespace Sys2Proof.Machine

/-- Contents of a buffer: (index, byte) pairs, indices strictly rising. An index that is not listed has no value the
spec gives: an `IN` byte whose written mark is clear (spec 10_state.md R46), an unspecified `OUT` byte (R41). -/
abbrev Memory := List Host.Cell

/-- The error codes a command can end with (spec 60_exceptions.md R205, codes 1 to 6). Codes 7 to 15 are never
written (10_state.md R32), so they have no constructor; code 0 is the absence of an error. -/
inductive ErrKind where
  | invalidCharacter
  | tooShort
  | checksumMismatch
  | illegalCommand
  | digitRange
  | inLength
  deriving DecidableEq, Repr

/-- What can reach the block, one entry a step (spec 20_memory.md R74; 60_exceptions.md R214). -/
inductive Event where
  /-- A host read of `width` bytes at bus address `addr` (spec 20_memory.md R68). -/
  | busRead (addr width : Nat)
  /-- A host write of `width` bytes of `data` at bus address `addr` (spec 20_memory.md R69). -/
  | busWrite (addr width data : Nat)
  /-- The engine's complete step is ordered here (spec 60_exceptions.md R202, R203, R214). -/
  | engine
  /-- The reset input `RST_N` takes this level (spec 70_reset_and_hazards.md R230). -/
  | rst (level : Bool)
  deriving DecidableEq, Repr

/-- What the block drove on the bus at a read: an `8 * width`-bit value (spec 20_memory.md R68). -/
structure Reply where
  width : Nat
  value : Nat
  deriving DecidableEq, Repr

/-- The state of the block. -/
structure State where
  /-- `BASE` and `IN_CAP`: configuration (spec 10_state.md R44), never changed by a step. -/
  cfg : Config
  /-- Level of the reset input `RST_N` (spec 70_reset_and_hazards.md R230). -/
  rstN : Bool
  /-- `CTRL.IE` (spec 10_state.md R25). -/
  ie : Bool
  /-- `LAST_CMD`, the last accepted command word (spec 10_state.md R26). -/
  lastCmd : Word
  /-- `STATUS.BUSY` (spec 10_state.md R28). -/
  busy : Bool
  /-- `STATUS.DONE` (spec 10_state.md R29). -/
  done : Bool
  /-- `STATUS.WBUSY` (spec 10_state.md R31). -/
  wbusy : Bool
  /-- `STATUS.ERRCODE` (spec 10_state.md R32); `none` is code 0. -/
  errCode : Option ErrKind
  /-- `IN_LEN` (spec 10_state.md R33). -/
  inLen : Word
  /-- `OUT_LEN` (spec 10_state.md R34). -/
  outLen : Word
  /-- `ERR_INFO` (spec 10_state.md R35). -/
  errInfo : Word
  /-- `IN` with its written marks (spec 10_state.md R40, R46). -/
  inBuf : Memory
  /-- `OUT`, the bytes that have a specified value (spec 10_state.md R41). -/
  outBuf : Memory
  /-- The input length latched at accept (spec 10_state.md R42, 60_exceptions.md R201). -/
  latchedLen : Word
  /-- The model's own: what the last host access got back (log 3). -/
  reply : Option Reply
  /-- The model's own: how many free bytes have been drawn (log 4). -/
  draws : Nat
  /-- The model's own: what is still to reach the block, in order (log 1). -/
  port : List Event
  deriving DecidableEq, Repr

/-- Why a step stops with a fault. -/
inductive Fault where
  /-- Raised by a host access that rules R62, R63, R65 do not admit: the spec treats a bus error as a fault of the
  access step (20_memory.md R66). Safe. -/
  | busError
  /-- Raised by an accept that would consume an `IN` byte never written since power-on (10_state.md R46,
  60_exceptions.md R201): the spec's model fault. Safe. -/
  | unwrittenInput
  /-- Raised by a host access while `RST_N = 0`, which the block does not admit (70_reset_and_hazards.md R230;
  93_implementation_defined.md U17, a stuck state). Safe. -/
  | heldInReset
  /-- Raised by a host access at an address that is not in the block's region (20_memory.md R61: "Offsets at or above
  0x4000 are outside the block"). Safe. -/
  | outsideRegion
  deriving DecidableEq, Repr

/-- Why a step is refused. -/
inductive Refusal where
  /-- Raised by a dispatch arm whose instruction has no meaning yet. Safe. -/
  | notModelled (mnemonic : String)
  deriving DecidableEq, Repr

/-- The block right after a power-on reset, `RST_N` high again, in the reference configuration (spec 10_state.md R45,
70_reset_and_hazards.md R230). `latchedLen` is a DESIGN CHOICE, unsafe: an idle engine holds no length (log 6). The
model's own fields start empty (logs 1, 3, 4). -/
def State.reset : State where
  cfg := Config.reference
  rstN := true
  ie := false
  lastCmd := 0x00000000#32
  busy := false
  done := false
  wbusy := false
  errCode := none
  inLen := 0#32
  outLen := 0#32
  errInfo := 0#32
  inBuf := []
  outBuf := []
  latchedLen := 0#32
  reply := none
  draws := 0
  port := []

end Sys2Proof.Machine
end

