-- ==== Sys2Proof/Machine/Params.lean ====
section
/-! DEFINITION. The numbers the configuration fixes: `BASE`, the capacities, and the constant registers. -/

namespace Sys2Proof

/-- Size of the block's region, 16 KiB (spec 00_scope.md R8, 20_memory.md R60). -/
def regionSize : Nat := 0x4000

/-- `BASE`, a multiple of `0x4000` (spec 00_scope.md R8). -/
def Config.base (c : Config) : Nat := regionSize * c.region

/-- `IN_CAP` (spec 00_scope.md R9). -/
def Config.inCap (c : Config) : Nat := 4 * (c.inWords.val + 1)

/-- `roundup4` (spec 00_scope.md R10). -/
def roundup4 (x : Nat) : Nat := 4 * ((x + 3) / 4)

/-- The bound of the longest encoding of `n` bytes, `floor(n * 138 / 100) + 1` (spec 42_codec.md R156). -/
def encodingBound (n : Nat) : Nat := n * 138 / 100 + 1

/-- `OUT_CAP = roundup4(floor((IN_CAP + 4) * 138 / 100) + 1)` (spec 00_scope.md R10). -/
def Config.outCap (c : Config) : Nat := roundup4 (encodingBound (c.inCap + 4))

/-- `ID`, the constant `0xB58C0001` (spec 10_state.md R22). -/
def idWord : Word := 0xB58C0001#32

/-- `CAPS`: `IN_CAP` in bits 15:0, `OUT_CAP` in bits 31:16 (spec 10_state.md R24). -/
def Config.capsWord (c : Config) : Word := BitVec.ofNat 32 (c.outCap * 0x10000 + c.inCap)

end Sys2Proof
end

