-- ==== Sys2Proof/Machine/Operands.lean ====
section
/-! DEFINITION. The operand of every command, `IN[0:n]`, and the pseudocode primitives over byte sequences
(spec 00_scope.md R15, R16; 30_encoding.md R93). -/

namespace Sys2Proof.Machine

/-! Byte sequences as numbers. -/

/-- The value of a big-endian sequence in radix `b`, most significant first: `valBE` for `b = 256`
(spec 00_scope.md R16, 20_memory.md R72), the value of a digit sequence for `b = 58` (40_converter.md R110, R112). -/
def valRadix (b : Nat) (ds : List Byte) : Nat := ds.foldl (fun v d => v * b + d.toNat) 0

/-- `valBE` (spec 00_scope.md R16). -/
def valBE (s : List Byte) : Nat := valRadix 256 s

/-- The remainders of repeated division by `b`, least significant first, until the value is 0 (the loop of spec
40_converter.md R110). `fuel` bounds the number of rounds. -/
def remainders (b : Nat) : Nat → Nat → List Nat
  | 0, _ => []
  | fuel + 1, v => if v = 0 then [] else (v % b) :: remainders b fuel (v / b)

/-- The digits of `v` in radix `b`, most significant first, no leading zero, `[]` for 0. A number has at most
`log2 v + 1` digits in any radix from 2 on, so the fuel never ends the loop early. -/
def radixDigits (b v : Nat) : List Byte :=
  (remainders b (Nat.log2 v + 1) v).reverse.map (BitVec.ofNat 8)

/-- `minBE`, the minimal big-endian serialization (spec 00_scope.md R16, 40_converter.md R112). -/
def minBE (v : Nat) : List Byte := radixDigits 256 v

/-- The length of the leading run of `x` in `s`: `lz` for `x = 0`, `lzsym` for `x = 0x31` (spec 00_scope.md R16). -/
def leadingRun (x : Byte) (s : List Byte) : Nat := (s.takeWhile (· == x)).length

/-- `lz`, the number of leading zero bytes (spec 00_scope.md R16). -/
def lz (s : List Byte) : Nat := leadingRun 0x00#8 s

/-- `lzsym`, the number of leading `'1'` symbols (spec 00_scope.md R16, 42_codec.md R153). -/
def lzsym (s : List Byte) : Nat := leadingRun 0x31#8 s

/-- The lowest index from `at` on whose byte fails the test, with that byte (the loops "lowest index first" of spec
40_converter.md R113, 41_mapper.md R134, R135). -/
def firstBad (good : Byte → Bool) : Nat → List Byte → Option (Nat × Byte)
  | _, [] => none
  | i, x :: xs => if good x then firstBad good (i + 1) xs else some (i, x)

/-! Reading a buffer. -/

/-- The byte at index `i`, or `none` where the spec gives none (spec 10_state.md R41, R46). -/
def Memory.read? (m : Memory) (i : Nat) : Option Byte :=
  match m with
  | [] => none
  | (k, x) :: rest => if k = i then some x else Memory.read? rest i

/-- The byte at index `i` as a read returns it: where the spec gives none, free byte number `draw`
(spec 10_state.md R41, R46: "an unspecified value (a draw)"; log 4). -/
def Memory.readOrDraw (m : Memory) (i draw : Nat) : Byte := (m.read? i).getD (Config.freeByte draw)

/-- Are the bytes at indices 0 to `n - 1` all written (spec 10_state.md R46)? -/
def Memory.written (m : Memory) (n : Nat) : Bool := (List.range n).all fun i => (m.read? i).isSome

/-- `inb = IN[0:n]` with `n` latched at accept (spec 30_encoding.md R93, 60_exceptions.md R203). An accept faults on
an unwritten byte (R201), so the draws matter only in states no accept leads to (log 9). -/
def State.inputBytes (s : State) : List Byte :=
  (List.range s.latchedLen.toNat).map fun i => s.inBuf.readOrDraw i (s.draws + i)

end Sys2Proof.Machine
end

