-- ==== Sys2Proof/Machine/Flags.lean ====
section
/-! DEFINITION. Register words made of fields: `STATUS`, `CTRL`, `ERR_INFO`, the error codes, and the `IRQ` wire. -/

namespace Sys2Proof.Machine

/-- The codes of `STATUS.ERRCODE` (spec 60_exceptions.md R205). -/
def ErrKind.code : ErrKind → Nat
  | .invalidCharacter => 1
  | .tooShort => 2
  | .checksumMismatch => 3
  | .illegalCommand => 4
  | .digitRange => 5
  | .inLength => 6

/-- `STATUS.ERRCODE`: 0 when the last command succeeded (spec 10_state.md R32). -/
def State.errCodeField (s : State) : Nat :=
  match s.errCode with
  | none => 0
  | some k => k.code

/-- `STATUS.ERR`, 1 if and only if `ERRCODE` is not 0 (spec 10_state.md R30). -/
def State.err (s : State) : Bool := decide (s.errCodeField ≠ 0)

/-- The word a read of `STATUS` returns (spec 10_state.md R27): `BUSY` 0, `DONE` 1, `ERR` 2, `WBUSY` 3,
`ERRCODE` 11:8, every other bit 0. -/
def State.statusWord (s : State) : Word :=
  BitVec.ofNat 32 (s.busy.toNat + 2 * s.done.toNat + 4 * s.err.toNat + 8 * s.wbusy.toNat + 256 * s.errCodeField)

/-- The word a read of `CTRL` returns: `IE` in bit 0, `SRST` and the reserved bits 0 (spec 10_state.md R25). -/
def State.ctrlWord (s : State) : Word := BitVec.ofNat 32 s.ie.toNat

/-- The `ERR_INFO` value `BYTE * 65536 + POS` (spec 60_exceptions.md R204, 10_state.md R35). -/
def errInfoWord (pos : Nat) (byte : Byte) : Word := BitVec.ofNat 32 (byte.toNat * 65536 + pos)

/-- The interrupt output: `IRQ = CTRL.IE and STATUS.DONE` at every moment (spec 60_exceptions.md R210). -/
def State.irq (s : State) : Bool := s.ie && s.done

end Sys2Proof.Machine
end

