-- ==== Sys2Proof/Machine/Ops.lean ====
section
/-! DEFINITION. The operations the steps share: buffers, the region's map, register reads and writes, accept, the
completion record, the two resets, and the host's bus accesses. -/

namespace Sys2Proof.Machine

/-! Buffers. -/

/-- Give index `i` the byte `x`, keeping the indices strictly rising. -/
def Memory.write (m : Memory) (i : Nat) (x : Byte) : Memory :=
  match m with
  | [] => [(i, x)]
  | (k, y) :: rest =>
    if i < k then (i, x) :: (k, y) :: rest
    else if i = k then (i, x) :: rest
    else (k, y) :: Memory.write rest i x

/-- Give the indices from `i` on the bytes of a list. -/
def Memory.writeBytes (m : Memory) (i : Nat) : List Byte → Memory
  | [] => m
  | x :: xs => Memory.writeBytes (m.write i x) (i + 1) xs

/-- The buffer whose bytes from index `i` on are those of a list, and no other. -/
def Memory.ofBytes (i : Nat) : List Byte → Memory
  | [] => []
  | x :: xs => (i, x) :: Memory.ofBytes (i + 1) xs

/-- The canonical form: indices strictly rising. An unlisted index reads as no value, so no entry can equal what an
unlisted index reads as. -/
def Memory.wf : Memory → Bool
  | [] => true
  | [_] => true
  | (i, _) :: (k, y) :: rest => decide (i < k) && Memory.wf ((k, y) :: rest)

/-! The lanes of the bus. -/

/-- Data bits `[8j+7:8j]` of each byte lane of a `w`-byte write (spec 20_memory.md R64). -/
def laneBytes (w data : Nat) : List Byte := (List.range w).map fun j => BitVec.ofNat 8 (data / 256 ^ j)

/-- The value whose lane bytes are these: the sum of byte `j` times `256^j` (spec 20_memory.md R68). -/
def lanesValue : List Byte → Nat
  | [] => 0
  | x :: xs => x.toNat + 256 * lanesValue xs

/-! The region's map. -/

/-- The eight registers (spec 10_state.md R23). -/
inductive Reg where
  | id | caps | ctrl | cmd | status | inLen | outLen | errInfo
  deriving DecidableEq, Repr

/-- The offset of a register (spec 10_state.md R23). -/
def Reg.offset : Reg → Nat
  | .id => 0x000
  | .caps => 0x004
  | .ctrl => 0x008
  | .cmd => 0x00C
  | .status => 0x010
  | .inLen => 0x014
  | .outLen => 0x018
  | .errInfo => 0x01C

/-- The register at an offset (spec 10_state.md R23). -/
def Reg.at? (o : Nat) : Option Reg :=
  match o with
  | 0x000 => some .id
  | 0x004 => some .caps
  | 0x008 => some .ctrl
  | 0x00C => some .cmd
  | 0x010 => some .status
  | 0x014 => some .inLen
  | 0x018 => some .outLen
  | 0x01C => some .errInfo
  | _ => none

/-- Offset of `IN[0]` (spec 20_memory.md R61). -/
def inWindow : Nat := 0x1000

/-- Offset of `OUT[0]` (spec 20_memory.md R61). -/
def outWindow : Nat := 0x2000

/-- What an access reaches: a register, or a buffer from an index on. -/
inductive Target where
  | reg (r : Reg)
  | input (i : Nat)
  | output (i : Nat)
  deriving DecidableEq, Repr

/-- The widths and alignments the buffer windows admit (spec 20_memory.md R63, R67). -/
def bufferAccess (o w : Nat) : Bool := (w = 1 || w = 2 || w = 4) && o % w = 0

/-- What the access of `w` bytes at offset `o` reaches, `none` where rules R62 and R63 do not admit it
(spec 20_memory.md R61, R62, R63). -/
def target (c : Config) (o w : Nat) : Option Target :=
  if w = 4 ∧ o < 0x20 then (Reg.at? o).map .reg
  else if bufferAccess o w then
    if inWindow ≤ o ∧ o + w ≤ inWindow + c.inCap then some (.input (o - inWindow))
    else if outWindow ≤ o ∧ o + w ≤ outWindow + c.outCap then some (.output (o - outWindow))
    else none
  else none

/-- The offset of a bus address in the block's region, `none` outside it (spec 20_memory.md R60, R61). -/
def regionOffset (c : Config) (addr : Nat) : Option Nat :=
  if c.base ≤ addr ∧ addr < c.base + regionSize then some (addr - c.base) else none

/-! Resets. -/

/-- Power-on values of every piece of state (spec 10_state.md R45, 70_reset_and_hazards.md R230), with `RST_N` high.
The configuration stays, and so do the model's draw counter and port; `latchedLen` is named in log 6. -/
def State.powerOn (s : State) : State where
  cfg := s.cfg
  rstN := true
  ie := false
  lastCmd := 0x00000000#32
  busy := false
  done := false
  wbusy := false
  errCode := none
  inLen := 0#32
  outLen := 0#32
  errInfo := 0#32
  inBuf := []
  outBuf := []
  latchedLen := 0#32
  reply := none
  draws := s.draws
  port := s.port

/-- The input `RST_N` takes a level (spec 70_reset_and_hazards.md R230): a rise gives every piece of state its
power-on value; a fall stops the block until the rise (log 8); the level it has already changes nothing. -/
def State.setRstN (s : State) (level : Bool) : State :=
  if level then
    if s.rstN then s else s.powerOn
  else { s with rstN := false }

/-- Soft reset (spec 70_reset_and_hazards.md R232): registers to their reset values, a busy command abandoned, `OUT`
unspecified, `IN` and its written marks unchanged. -/
def State.softReset (s : State) : State :=
  { s with
    ie := false
    lastCmd := 0x00000000#32
    busy := false
    done := false
    wbusy := false
    errCode := none
    inLen := 0#32
    outLen := 0#32
    errInfo := 0#32
    outBuf := []
    latchedLen := 0#32 }

/-! The life of a command. -/

/-- What a command's function answers (spec 00_scope.md R16): `Ok(outb)` or `Err(code, info)`. -/
inductive Result where
  | ok (out : List Byte)
  | err (kind : ErrKind) (info : Word)
  deriving DecidableEq, Repr

/-- The state an accept of word `v` leaves (spec 60_exceptions.md R201): the record of the previous command is gone,
`WBUSY` is not changed. -/
def State.accepted (s : State) (v : Word) : State :=
  { s with
    lastCmd := v
    latchedLen := s.inLen
    busy := true
    done := false
    errCode := none
    errInfo := 0#32
    outLen := 0#32
    outBuf := [] }

/-- Does an accept of word `v` hit the spec's model fault: a legal command whose input, within `IN_CAP`, holds an
unwritten byte (spec 10_state.md R46, 60_exceptions.md R201)? -/
def State.acceptFaults (s : State) (v : Word) : Bool :=
  (decodeWord v).isCommand && decide (s.inLen.toNat ≤ s.cfg.inCap) && !s.inBuf.written s.inLen.toNat

/-- Accept step (spec 60_exceptions.md R201). Every word is accepted, legal or not (30_encoding.md R96). -/
def accept (v : Word) (s : State) : Host.Outcome State Fault Refusal :=
  if s.acceptFaults v then .fault .unwrittenInput else .next (s.accepted v)

/-- The completion record (spec 60_exceptions.md R203, R212): the shared end of every command. On an error `OUT_LEN`
is 0 and no byte of `OUT` is specified (R203, R204). -/
def State.completed (s : State) (r : Result) : State :=
  match r with
  | .ok out =>
    { s with
      outBuf := Memory.ofBytes 0 out
      outLen := BitVec.ofNat 32 out.length
      errCode := none
      errInfo := 0#32
      busy := false
      done := true }
  | .err kind info =>
    { s with
      outBuf := []
      outLen := 0#32
      errCode := some kind
      errInfo := info
      busy := false
      done := true }

/-- Count the free bytes that reading `IN[0:n]` may have drawn (log 4). -/
def State.drew (s : State) (n : Nat) : State := { s with draws := s.draws + n }

/-- Complete step of a legal command with function `f` (spec 60_exceptions.md R203, R206): the common check
`n > IN_CAP` first, which reads nothing of `IN`, then the command's function of `IN[0:n]`. -/
def runCommand (f : List Byte → Result) (s : State) : Host.Outcome State Fault Refusal :=
  if s.latchedLen.toNat ≤ s.cfg.inCap then
    .next ((s.drew s.latchedLen.toNat).completed (f s.inputBytes))
  else .next (s.completed (.err .inLength 0#32))

/-! Register accesses. -/

/-- A write the block ignores because it is busy sets the sticky flag (spec 70_reset_and_hazards.md R240). -/
def State.ignoredWhileBusy (s : State) : State := { s with wbusy := true }

/-- The word a read of a register returns (spec 10_state.md R22 to R35). -/
def State.readReg (s : State) : Reg → Word
  | .id => idWord
  | .caps => s.cfg.capsWord
  | .ctrl => s.ctrlWord
  | .cmd => s.lastCmd
  | .status => s.statusWord
  | .inLen => s.inLen
  | .outLen => s.outLen
  | .errInfo => s.errInfo

/-- Write of `CTRL` (spec 10_state.md R25): `IE` takes bit 0, then bit 1 performs the soft reset. -/
def State.writeCtrl (s : State) (v : Word) : State :=
  let s := { s with ie := v.getLsbD 0 }
  if v.getLsbD 1 then s.softReset else s

/-- Write of `STATUS` (spec 10_state.md R27): bit 1 clears `DONE`, bit 3 clears `WBUSY`. It is also the handler's
acknowledge, the nearest thing to a return (60_exceptions.md R213). -/
def State.writeStatus (s : State) (v : Word) : State :=
  { s with
    done := s.done && !v.getLsbD 1
    wbusy := s.wbusy && !v.getLsbD 3 }

/-- Write of `IN_LEN` (spec 10_state.md R33): all 32 bits are stored; ignored while busy (R240). -/
def State.writeInLen (s : State) (v : Word) : State :=
  if s.busy then s.ignoredWhileBusy else { s with inLen := v }

/-- Write of a register (spec 20_memory.md R69, 10_state.md R36: writes of read-only registers are ignored). -/
def writeReg (r : Reg) (v : Word) (s : State) : Host.Outcome State Fault Refusal :=
  match r with
  | .ctrl => .next (s.writeCtrl v)
  | .cmd => if s.busy then .next s.ignoredWhileBusy else accept v s
  | .status => .next (s.writeStatus v)
  | .inLen => .next (s.writeInLen v)
  | .id | .caps | .outLen | .errInfo => .next s

/-- Write of the input window from index `i` on (spec 20_memory.md R69): the covered bytes are stored and marked
written, all of them or, while busy, none (R70, R240). -/
def State.writeInput (s : State) (i : Nat) (bytes : List Byte) : State :=
  if s.busy then s.ignoredWhileBusy else { s with inBuf := s.inBuf.writeBytes i bytes }

/-! Bus accesses. -/

/-- The `w` bytes a read of a buffer returns, the lowest index first; unspecified ones are draws. -/
def State.readBuffer (s : State) (m : Memory) (i w : Nat) : List Byte :=
  (List.range w).map fun j => m.readOrDraw (i + j) (s.draws + j)

/-- The block answers a read with `w` bytes of value `v`. -/
def State.answer (s : State) (w v : Nat) : State := { s with reply := some { width := w, value := v } }

/-- Host read of `w` bytes at bus address `addr` (spec 20_memory.md R68). It changes no state of the block (R71). -/
def busRead (addr w : Nat) (s : State) : Host.Outcome State Fault Refusal :=
  if s.rstN then
    match regionOffset s.cfg addr with
    | none => .fault .outsideRegion
    | some o =>
      match target s.cfg o w with
      | none => .fault .busError
      | some (.reg r) => .next (s.answer w (s.readReg r).toNat)
      | some (.input i) => .next ((s.drew w).answer w (lanesValue (s.readBuffer s.inBuf i w)))
      | some (.output i) => .next ((s.drew w).answer w (lanesValue (s.readBuffer s.outBuf i w)))
  else .fault .heldInReset

/-- Host write of `w` bytes of `data` at bus address `addr` (spec 20_memory.md R69); the output window is read-only
(R65). A write gets nothing back (60_exceptions.md R221). -/
def busWrite (addr w data : Nat) (s : State) : Host.Outcome State Fault Refusal :=
  if s.rstN then
    match regionOffset s.cfg addr with
    | none => .fault .outsideRegion
    | some o =>
      match target s.cfg o w with
      | none => .fault .busError
      | some (.reg r) => writeReg r (BitVec.ofNat 32 data) { s with reply := none }
      | some (.input i) => .next ({ s with reply := none }.writeInput i (laneBytes w data))
      | some (.output _) => .fault .busError
  else .fault .heldInReset

end Sys2Proof.Machine
end

