-- ==== Sys2Proof/Machine/Converter.lean ====
section
/-! DEFINITION. The Base Converter: `TODIG` and `FROMDIG` (spec 40_converter.md). -/

namespace Sys2Proof.Machine

/-- `toDigits` (spec 40_converter.md R110): the base-58 digits of the big-endian value, no leading zero digit. -/
def toDigits (s : List Byte) : List Byte := radixDigits 58 (valBE s)

/-- `fromDigits` (spec 40_converter.md R112): the minimal big-endian bytes of the value the digits denote. -/
def fromDigits (d : List Byte) : List Byte := minBE (valRadix 58 d)

/-- A digit value is in `[0, 57]` (spec 00_scope.md R18). -/
def isDigit (x : Byte) : Bool := decide (x.toNat ≤ 57)

/-- The digit check `FROMDIG` and `MAP` share (spec 40_converter.md R113, 41_mapper.md R134): the lowest-indexed byte
above 57 is reported. -/
def checkDigits (inb : List Byte) (r : Result) : Result :=
  match firstBad isDigit 0 inb with
  | some (i, x) => .err .digitRange (errInfoWord i x)
  | none => r

/-- `exec_TODIG` (spec 40_converter.md R111). -/
def todigResult (inb : List Byte) : Result := .ok (toDigits inb)

/-- `exec_FROMDIG` (spec 40_converter.md R113). -/
def fromdigResult (inb : List Byte) : Result := checkDigits inb (.ok (fromDigits inb))

/-- `TODIG` (spec 40_converter.md R111). -/
def execTodig (s : State) : Host.Outcome State Fault Refusal := runCommand todigResult s

/-- `FROMDIG` (spec 40_converter.md R113). -/
def execFromdig (s : State) : Host.Outcome State Fault Refusal := runCommand fromdigResult s

end Sys2Proof.Machine
end

