-- ==== Sys2Proof/Machine/Mapper.lean ====
section
/-! DEFINITION. The alphabet mapper: `MAP` and `UNMAP` (spec 41_mapper.md). -/

namespace Sys2Proof.Machine

/-- The codes of the 58 symbols in digit order (spec 41_mapper.md R130), in the runs `1-9`, `A-H`, `J-N`, `P-Z`, `a-k`,
`m-z`. -/
def alphabet : List Byte :=
  [0x31#8, 0x32#8, 0x33#8, 0x34#8, 0x35#8, 0x36#8, 0x37#8, 0x38#8, 0x39#8] ++
  [0x41#8, 0x42#8, 0x43#8, 0x44#8, 0x45#8, 0x46#8, 0x47#8, 0x48#8] ++
  [0x4A#8, 0x4B#8, 0x4C#8, 0x4D#8, 0x4E#8] ++
  [0x50#8, 0x51#8, 0x52#8, 0x53#8, 0x54#8, 0x55#8, 0x56#8, 0x57#8, 0x58#8, 0x59#8, 0x5A#8] ++
  [0x61#8, 0x62#8, 0x63#8, 0x64#8, 0x65#8, 0x66#8, 0x67#8, 0x68#8, 0x69#8, 0x6A#8, 0x6B#8] ++
  [0x6D#8, 0x6E#8, 0x6F#8, 0x70#8, 0x71#8, 0x72#8, 0x73#8, 0x74#8, 0x75#8, 0x76#8, 0x77#8, 0x78#8, 0x79#8, 0x7A#8]

/-- The zero symbol `'1'`, code 0x31 (spec 00_scope.md R18). -/
def zeroSymbol : Byte := 0x31#8

/-- `sym(d)`, the code of `ALPHA[d]` (spec 41_mapper.md R132). Its domain is the digits 0 to 57, the only arguments any
command gives it; outside it the zero symbol stands in, which nothing uses (log 10). -/
def sym (d : Byte) : Byte := alphabet.getD d.toNat zeroSymbol

/-- `dig(c)`, by the code ranges of spec 41_mapper.md R132; `none` is INVALID. -/
def dig (c : Byte) : Option Byte :=
  if 0x31#8 ≤ c ∧ c ≤ 0x39#8 then some (c - 0x31#8)
  else if 0x41#8 ≤ c ∧ c ≤ 0x48#8 then some (c - 0x38#8)
  else if 0x4A#8 ≤ c ∧ c ≤ 0x4E#8 then some (c - 0x39#8)
  else if 0x50#8 ≤ c ∧ c ≤ 0x5A#8 then some (c - 0x3A#8)
  else if 0x61#8 ≤ c ∧ c ≤ 0x6B#8 then some (c - 0x40#8)
  else if 0x6D#8 ≤ c ∧ c ≤ 0x7A#8 then some (c - 0x41#8)
  else none

/-- `valid(c)` (spec 41_mapper.md R132). -/
def validSymbol (c : Byte) : Bool := (dig c).isSome

/-- The digits of a string that passed validation (spec 41_mapper.md R136, 42_codec.md R152 step 3). -/
def digitsOf (inb : List Byte) : List Byte := inb.filterMap dig

/-- `validate` (spec 41_mapper.md R135): the whole input is checked before anything else; the lowest-indexed invalid
byte is reported. -/
def validated (inb : List Byte) (r : Result) : Result :=
  match firstBad validSymbol 0 inb with
  | some (i, x) => .err .invalidCharacter (errInfoWord i x)
  | none => r

/-- `exec_MAP` (spec 41_mapper.md R134). -/
def mapResult (inb : List Byte) : Result := checkDigits inb (.ok (inb.map sym))

/-- `exec_UNMAP` (spec 41_mapper.md R136). -/
def unmapResult (inb : List Byte) : Result := validated inb (.ok (digitsOf inb))

/-- `MAP` (spec 41_mapper.md R134). -/
def execMap (s : State) : Host.Outcome State Fault Refusal := runCommand mapResult s

/-- `UNMAP` (spec 41_mapper.md R136). -/
def execUnmap (s : State) : Host.Outcome State Fault Refusal := runCommand unmapResult s

end Sys2Proof.Machine
end

