-- ==== Sys2Proof/Machine/Codec.lean ====
section
/-! DEFINITION. The Base58 codec: `ENC` and `DEC` (spec 42_codec.md). -/

namespace Sys2Proof.Machine

/-- Base58 encode (spec 42_codec.md R150): one zero symbol per leading zero byte, then the symbols of the digits. -/
def encodeString (inb : List Byte) : List Byte :=
  List.replicate (lz inb) zeroSymbol ++ (toDigits inb).map sym

/-- Base58 decode of a valid string (spec 42_codec.md R152 steps 2 to 5): one zero byte per symbol of the leading run
of zero symbols (R153), then the minimal bytes of the value of all digits. -/
def decodeString (inb : List Byte) : List Byte :=
  List.replicate (lzsym inb) 0x00#8 ++ fromDigits (digitsOf inb)

/-- `exec_ENC` (spec 42_codec.md R150). -/
def encResult (inb : List Byte) : Result := .ok (encodeString inb)

/-- `exec_DEC` (spec 42_codec.md R152). -/
def decResult (inb : List Byte) : Result := validated inb (.ok (decodeString inb))

/-- `ENC` (spec 42_codec.md R150). -/
def execEnc (s : State) : Host.Outcome State Fault Refusal := runCommand encResult s

/-- `DEC` (spec 42_codec.md R152). -/
def execDec (s : State) : Host.Outcome State Fault Refusal := runCommand decResult s

end Sys2Proof.Machine
end

