-- ==== Sys2Proof/Machine/Check.lean ====
section
/-! DEFINITION. The checksum framer and Base58Check: `CSUM`, `FRAME`, `UNFRAME`, `CENC`, `CDEC` (spec 43_check.md). -/

namespace Sys2Proof.Machine

/-- `H`, the 32 bytes of `HASH256` (spec 00_scope.md R12, R16). -/
def hashBytes (message : List Byte) : List Byte := (Config.hash256 message).toList

/-- `csum(p) = H(H(p))[0:4]` (spec 43_check.md R170). -/
def checksum (payload : List Byte) : List Byte := (hashBytes (hashBytes payload)).take 4

/-- The frame `payload ++ checksum` (spec 43_check.md R172). -/
def frameOf (payload : List Byte) : List Byte := payload ++ checksum payload

/-- `unframe` (spec 43_check.md R173): too short is decided before the hash; the comparison is exact on 4 bytes. -/
def unframe (f : List Byte) : Result :=
  if f.length < 4 then .err .tooShort (errInfoWord f.length 0x00#8)
  else
    let payload := f.take (f.length - 4)
    let claimed := f.drop (f.length - 4)
    if claimed = checksum payload then .ok payload else .err .checksumMismatch 0#32

/-- `exec_CSUM` (spec 43_check.md R171). -/
def csumResult (inb : List Byte) : Result := .ok (checksum inb)

/-- `exec_FRAME` (spec 43_check.md R172). -/
def frameResult (inb : List Byte) : Result := .ok (frameOf inb)

/-- `exec_UNFRAME` (spec 43_check.md R174). -/
def unframeResult (inb : List Byte) : Result := unframe inb

/-- `exec_CENC` (spec 43_check.md R176). -/
def cencResult (inb : List Byte) : Result := encResult (frameOf inb)

/-- `exec_CDEC` (spec 43_check.md R178): an error of the decoding is the result unchanged. -/
def cdecResult (inb : List Byte) : Result :=
  match decResult inb with
  | .ok f => unframe f
  | .err kind info => .err kind info

/-- `CSUM` (spec 43_check.md R171). -/
def execCsum (s : State) : Host.Outcome State Fault Refusal := runCommand csumResult s

/-- `FRAME` (spec 43_check.md R172). -/
def execFrame (s : State) : Host.Outcome State Fault Refusal := runCommand frameResult s

/-- `UNFRAME` (spec 43_check.md R174). -/
def execUnframe (s : State) : Host.Outcome State Fault Refusal := runCommand unframeResult s

/-- `CENC` (spec 43_check.md R176). -/
def execCenc (s : State) : Host.Outcome State Fault Refusal := runCommand cencResult s

/-- `CDEC` (spec 43_check.md R178). -/
def execCdec (s : State) : Host.Outcome State Fault Refusal := runCommand cdecResult s

end Sys2Proof.Machine
end

