-- ==== Sys2Proof/Machine/Illegal.lean ====
section
/-! DEFINITION. The illegal row: every word that is no command (spec 30_encoding.md R96). -/

namespace Sys2Proof.Machine

/-- An illegal word completes with `ILLEGAL_COMMAND`, reading nothing of `IN`, before any other check
(spec 30_encoding.md R96, 60_exceptions.md R206, R207). Which word it is makes no difference. -/
def execIllegal (_word : Word) (s : State) : Host.Outcome State Fault Refusal :=
  .next (s.completed (.err .illegalCommand 0#32))

end Sys2Proof.Machine
end

