-- ==== Sys2Proof/Machine/Dispatch.lean ====
section
/-! DEFINITION. One arm per command: the complete step of each (spec 60_exceptions.md R206). -/

namespace Sys2Proof.Machine

def exec (i : Instr) (s : State) : Host.Outcome State Fault Refusal :=
  match i with
  | .enc => Sys2Proof.Machine.execEnc s
  | .dec => Sys2Proof.Machine.execDec s
  | .cenc => Sys2Proof.Machine.execCenc s
  | .cdec => Sys2Proof.Machine.execCdec s
  | .todig => Sys2Proof.Machine.execTodig s
  | .fromdig => Sys2Proof.Machine.execFromdig s
  | .map => Sys2Proof.Machine.execMap s
  | .unmap => Sys2Proof.Machine.execUnmap s
  | .csum => Sys2Proof.Machine.execCsum s
  | .frame => Sys2Proof.Machine.execFrame s
  | .unframe => Sys2Proof.Machine.execUnframe s
  | .illegal word => Sys2Proof.Machine.execIllegal word s

end Sys2Proof.Machine
end

