-- ==== Sys2Proof/Machine/Turn.lean ====
section
/-! DEFINITION. The engine's turn and the entries of the port: what the step runs. -/

namespace Sys2Proof.Machine

/-- The bytes of the command word the engine runs: it is `LAST_CMD`, no memory is fetched (spec 10_state.md R21, R42;
20_memory.md R78). -/
def State.fetch (s : State) : List Byte := lanesOfWord s.lastCmd

/-- The engine's turn (spec 60_exceptions.md R203): enabled when `STATUS.BUSY = 1` and the block is out of reset
(70_reset_and_hazards.md R230); otherwise nothing happens (R219). -/
def engineTurn (s : State) : Host.Outcome State Fault Refusal :=
  if s.rstN && s.busy then
    match decodeBytes s.fetch with
    | .command i _ => exec i s
    | .truncated => .next s
  else .next s

/-- One entry of the port, already taken off it (spec 20_memory.md R74). -/
def takeEvent (e : Event) (s : State) : Host.Outcome State Fault Refusal :=
  match e with
  | .busRead addr width => busRead addr width s
  | .busWrite addr width data => busWrite addr width data s
  | .engine => engineTurn s
  | .rst level => .next (s.setRstN level)

/-- The command word `w` stands where the engine finds its command, the engine is busy with the input length that
`IN_LEN` holds, and the engine's turn is next: what an accept sets up, as far as the complete step needs it (log 11). -/
def State.withCommand (s : State) (w : Word) : State :=
  { s with
    rstN := true
    lastCmd := w
    latchedLen := s.inLen
    busy := true
    port := .engine :: s.port }

end Sys2Proof.Machine
end

