-- ==== Sys2Proof/Machine/Step.lean ====
section
/-! DEFINITION. The step of the block. -/

namespace Sys2Proof.Machine

/-- One step (spec 20_memory.md R74, 60_exceptions.md R202): the next entry of the port, or, when nothing is left to
reach the block, the engine's turn. A busy engine so completes unless a reset comes first; an idle one does nothing
(R219). -/
def step (s : State) : Host.Outcome State Fault Refusal :=
  match s.port with
  | e :: rest => takeEvent e { s with port := rest }
  | [] => engineTurn s

/-- `s` with the command word `w` accepted and the engine's turn next, so that the next step runs it. There is one
format of 32 bits (spec 30_encoding.md R90), so `nbits` changes nothing. -/
def State.withFetchWord (s : State) (_nbits w : Nat) : State := s.withCommand (BitVec.ofNat 32 w)

end Sys2Proof.Machine
end

