-- ==== Sys2Proof/Machine/Datapath.lean ====
section
/-! DEFINITION. The reference engine of the radix converter on its fixed-width datapath (spec 40_converter.md R116 to
R118): 8-bit limbs of `WORK`, 6-bit digits and carries, a 14-bit accumulator. Its steps are not architectural
(10_state.md R42); the machine uses the functions of R110 and R112, and a statement says this engine computes the same. -/

namespace Sys2Proof.Machine

/-- One limb of the long division by 58 (spec 40_converter.md R117): accumulator `r * 256 + limb`, quotient limb and
new remainder. -/
def divLimb (r : BitVec 6) (limb : Byte) : Byte × BitVec 6 :=
  let a : BitVec 14 := r.setWidth 14 * 256#14 + limb.setWidth 14
  ((a / 58#14).setWidth 8, (a % 58#14).setWidth 6)

/-- One pass over `WORK[z:n]`, most significant limb first (spec 40_converter.md R117). -/
def divPass (r : BitVec 6) : List Byte → List Byte × BitVec 6
  | [] => ([], r)
  | limb :: limbs =>
    let q := divLimb r limb
    let rest := divPass q.2 limbs
    (q.1 :: rest.1, rest.2)

/-- The limbs from the first non-zero one on: `z` moved past zero limbs (spec 40_converter.md R117). -/
def skipZeros (limbs : List Byte) : List Byte := limbs.dropWhile (· == 0x00#8)

/-- The passes of `engine_toDigits`, one digit each, least significant first; `fuel` bounds their number. -/
def divPasses : Nat → List Byte → List (BitVec 6)
  | 0, _ => []
  | fuel + 1, limbs =>
    if limbs = [] then []
    else
      let p := divPass 0#6 limbs
      p.2 :: divPasses fuel (skipZeros p.1)

/-- `engine_toDigits` (spec 40_converter.md R117). Two base-58 digits hold more than a byte, so `2 * n` passes are
enough. -/
def engineToDigits (inb : List Byte) : List Byte :=
  (divPasses (2 * inb.length) (skipZeros inb)).reverse.map (BitVec.setWidth 8)

/-- One limb of the multiply-accumulate by 58 (spec 40_converter.md R118): `t = limb * 58 + c`, low byte and carry. -/
def macLimb (limb : Byte) (c : BitVec 6) : Byte × BitVec 6 :=
  let t : BitVec 14 := limb.setWidth 14 * 58#14 + c.setWidth 14
  (t.setWidth 8, (t >>> 8).setWidth 6)

/-- One pass over the limb array, least significant limb first (spec 40_converter.md R118). -/
def macPass (c : BitVec 6) : List Byte → List Byte × BitVec 6
  | [] => ([], c)
  | limb :: limbs =>
    let rest := macPass c limbs
    let t := macLimb limb rest.2
    (t.1 :: rest.1, t.2)

/-- Fold one digit into the limb array, which grows by a limb when a carry is left (spec 40_converter.md R118). -/
def macDigit (limbs : List Byte) (d : Byte) : List Byte :=
  let p := macPass (d.setWidth 6) limbs
  if p.2 = 0 then p.1 else p.2.setWidth 8 :: p.1

/-- `engine_fromDigits` (spec 40_converter.md R118). -/
def engineFromDigits (digits : List Byte) : List Byte := digits.foldl macDigit []

end Sys2Proof.Machine
end

