-- ==== Sys2Proof/Machine/HostNotation.lean ====
section
/-! DEFINITION. The host program notation (spec 30_encoding.md R98, R99) as the bus transactions it issues. Host variables
and the branch `bz` belong to the host and issue no transaction (R98), so they are no part of the block. -/

namespace Sys2Proof.Machine

/-- `wr32 X, v` (spec 30_encoding.md R98). -/
def wr32 (c : Config) (o v : Nat) : Event := .busWrite (c.base + o) 4 v

/-- `wr16 X, v` (spec 30_encoding.md R98). -/
def wr16 (c : Config) (o v : Nat) : Event := .busWrite (c.base + o) 2 v

/-- `wr8 X, v` (spec 30_encoding.md R98). -/
def wr8 (c : Config) (o v : Nat) : Event := .busWrite (c.base + o) 1 v

/-- `rd32 X` (spec 30_encoding.md R98). -/
def rd32 (c : Config) (o : Nat) : Event := .busRead (c.base + o) 4

/-- `rd16 X` (spec 30_encoding.md R98). -/
def rd16 (c : Config) (o : Nat) : Event := .busRead (c.base + o) 2

/-- `rd8 X` (spec 30_encoding.md R98). -/
def rd8 (c : Config) (o : Nat) : Event := .busRead (c.base + o) 1

/-- `cmd OP` (spec 30_encoding.md R99). -/
def cmd (c : Config) (i : Instr) : Event := wr32 c Reg.cmd.offset (encode i).toNat

/-- The word and tail writes of `load` from buffer offset `o` on: whole words first, then single bytes
(spec 30_encoding.md R99). -/
def loadBytes (c : Config) (o : Nat) : List Byte → List Event
  | b0 :: b1 :: b2 :: b3 :: rest => wr32 c o (lanesValue [b0, b1, b2, b3]) :: loadBytes c (o + 4) rest
  | tail => tail.mapIdx fun i b => wr8 c (o + i) b.toNat

/-- `load [b0, ..., b(n-1)]` (spec 30_encoding.md R99). -/
def load (c : Config) (bytes : List Byte) : List Event :=
  loadBytes c inWindow bytes ++ [wr32 c Reg.inLen.offset bytes.length]

/-- `loads "text"`: the character codes, one byte each (spec 30_encoding.md R99, 41_mapper.md R131). DESIGN CHOICE, unsafe
(log 19): a character outside ASCII has no code in the spec, the low 8 bits of its code point stand in. -/
def loads (c : Config) (text : String) : List Event :=
  load c (text.toList.map fun ch => BitVec.ofNat 8 ch.toNat)

/-- The transactions of `wait` when its loop ends at the `k + 1`st read of `STATUS` (spec 30_encoding.md R99; the
number of rounds is the host's to find out). -/
def wait (c : Config) (k : Nat) : List Event := List.replicate (k + 1) (rd32 c Reg.status.offset)

/-- `ack` (spec 30_encoding.md R99). -/
def ack (c : Config) : Event := wr32 c Reg.status.offset 0x2

/-- `fetch n` (spec 30_encoding.md R99). -/
def fetchOut (c : Config) (n : Nat) : List Event := (List.range n).map fun i => rd8 c (outWindow + i)

/-- `srst` (spec 30_encoding.md R99). -/
def srst (c : Config) : Event := wr32 c Reg.ctrl.offset 0x2

/-- `run OP` (spec 30_encoding.md R99), its wait ending at the `k + 1`st read. -/
def runOp (c : Config) (i : Instr) (k : Nat) : List Event := cmd c i :: wait c k

end Sys2Proof.Machine
end

