-- ==== Sys2Proof/Safety.lean ====
section
/-! DEFINITION. The terms the statements use: the state invariant, what a completion leaves, and which accesses the
bus port admits. -/

namespace Sys2Proof.Machine

/-- What holds of every state a run reaches. Each field names the rule of the spec it comes from. -/
structure State.Inv (s : State) : Prop where
  /-- The input buffer is in canonical form. -/
  inCanonical : s.inBuf.wf = true
  /-- Only `IN[0]` to `IN[IN_CAP-1]` exist (spec 10_state.md R40). -/
  inExists : ∀ c ∈ s.inBuf, c.1 < s.cfg.inCap
  /-- The output buffer is in canonical form. -/
  outCanonical : s.outBuf.wf = true
  /-- Exactly the bytes `OUT[0:OUT_LEN]` have a specified value (spec 10_state.md R41). -/
  outSpecified : ∀ i, (s.outBuf.read? i).isSome = true ↔ i < s.outLen.toNat
  /-- `OUT_LEN <= OUT_CAP` (spec 10_state.md R34). -/
  outFits : s.outLen.toNat ≤ s.cfg.outCap
  /-- `DONE` and `BUSY` are never both 1 (spec 10_state.md R29). -/
  notBusyAndDone : ¬(s.busy = true ∧ s.done = true)
  /-- While busy, `ERRCODE` and `OUT_LEN` are 0 (spec 10_state.md R32, R34; 60_exceptions.md R202). -/
  busyIsClean : s.busy = true → s.errCode = none ∧ s.outLen = 0#32
  /-- While busy, the latched length is `IN_LEN`, which cannot change (spec 10_state.md R42). -/
  busyLatched : s.busy = true → s.latchedLen = s.inLen
  /-- A busy legal command has all its input written (spec 10_state.md R46, 60_exceptions.md R201). -/
  busyInputWritten : s.busy = true → (decodeWord s.lastCmd).isCommand = true →
    s.latchedLen.toNat ≤ s.cfg.inCap → s.inBuf.written s.latchedLen.toNat = true
  /-- An error leaves no output (spec 60_exceptions.md R203). -/
  errorNoOutput : s.errCode ≠ none → s.outLen = 0#32
  /-- `ERR_INFO` is 0 unless there is an error (spec 10_state.md R35). -/
  noErrorNoInfo : s.errCode = none → s.errInfo = 0#32
  /-- `ERR_INFO` bits 31:24 are 0 (spec 10_state.md R35). -/
  infoReserved : s.errInfo.toNat < 2 ^ 24

/-- What a command's completion leaves as it was: everything but `OUT`, `OUT_LEN`, `ERRCODE`, `ERR_INFO`, `BUSY`, `DONE`
(spec 60_exceptions.md R203, R208) and the model's draw counter. `IN` and its written marks are among it. -/
structure State.SameOutsideRecord (s t : State) : Prop where
  cfg : t.cfg = s.cfg
  rstN : t.rstN = s.rstN
  ie : t.ie = s.ie
  lastCmd : t.lastCmd = s.lastCmd
  wbusy : t.wbusy = s.wbusy
  inLen : t.inLen = s.inLen
  inBuf : t.inBuf = s.inBuf
  latchedLen : t.latchedLen = s.latchedLen
  reply : t.reply = s.reply
  port : t.port = s.port

/-- `t` is `s` after a completion with `Ok(out)` (spec 60_exceptions.md R203): the record, and nothing else changed.
The bytes of `OUT` from `len(out)` on are unspecified. -/
structure State.CompletedOk (s t : State) (out : List Byte) : Prop where
  frame : s.SameOutsideRecord t
  busy : t.busy = false
  done : t.done = true
  errCode : t.errCode = none
  errInfo : t.errInfo = 0#32
  outLen : t.outLen.toNat = out.length
  outBytes : ∀ i, t.outBuf.read? i = out[i]?

/-- `t` is `s` after a completion with `Err(kind, info)` (spec 60_exceptions.md R203): no byte of `OUT` is specified. -/
structure State.CompletedErr (s t : State) (kind : ErrKind) (info : Nat) : Prop where
  frame : s.SameOutsideRecord t
  busy : t.busy = false
  done : t.done = true
  errCode : t.errCode = some kind
  errInfo : t.errInfo.toNat = info
  outLen : t.outLen = 0#32
  outBytes : ∀ i, t.outBuf.read? i = none

/-- The command's input fits the buffer, so that its own function runs (spec 60_exceptions.md R206). -/
abbrev State.InputFits (s : State) : Prop := s.latchedLen.toNat ≤ s.cfg.inCap

/-- `d` is the base-`b` notation of `v`: every digit below `b`, no leading zero, value `v`. There is exactly one such
sequence (spec 00_scope.md R16, 40_converter.md R110, R112). -/
def IsNotation (b v : Nat) (d : List Byte) : Prop :=
  (∀ x ∈ d, x.toNat < b) ∧ d.head? ≠ some 0x00#8 ∧ valRadix b d = v

/-- The register window admits 32-bit accesses at multiples of 4 (spec 20_memory.md R61, R63). -/
abbrev AdmittedRegister (o w : Nat) : Prop := w = 4 ∧ o % 4 = 0 ∧ o < 0x20

/-- A window of `cap` bytes at `window` admits aligned accesses of 1, 2 or 4 bytes (spec 20_memory.md R61 to R63). -/
abbrev AdmittedBuffer (window cap o w : Nat) : Prop :=
  (w = 1 ∨ w = 2 ∨ w = 4) ∧ o % w = 0 ∧ window ≤ o ∧ o + w ≤ window + cap

end Sys2Proof.Machine
end

