-- ==== Sys2Proof/Certificates/Slice0/Obligations.lean ====
section
/-! DEFINITION. The statements for the provers. -/

open Sys2Proof Sys2Proof.Machine

/-! ## Encoding -/

/-- DecodeEncodeRoundTrip: for every well-formed instruction and whatever bytes follow, decoding its encoded bytes gives
the instruction back and leaves the bytes that follow (30_encoding.md sections 1 and 2). -/
def Obligations.DecodeEncodeRoundTrip : Prop :=
  ∀ (i : Instr) (rest : List Byte), i.wellFormed = true →
    decodeBytes (encodeBytes i ++ rest) = .command i rest

/-- EncodeDecodeRoundTrip: every word decodes to a well-formed instruction whose encoding is that word again, so no two
words share a meaning (30_encoding.md sections 1 to 3). -/
def Obligations.EncodeDecodeRoundTrip : Prop :=
  ∀ w : Word, (decodeWord w).wellFormed = true ∧ encode (decodeWord w) = w

/-- DecodeFollowsOpcodeMap (R95): a non-zero field [31:4] is illegal; with it zero, `OP` picks the command of the map,
the five other opcodes are illegal; so exactly 11 of the 2^32 words are legal. -/
def Obligations.DecodeFollowsOpcodeMap : Prop :=
  (∀ w : Word, w.toNat / 16 ≠ 0 → decodeWord w = .illegal w) ∧
  (∀ w : Word, w.toNat / 16 = 0 →
    (w.toNat % 16 = 0x1 → decodeWord w = .enc) ∧ (w.toNat % 16 = 0x2 → decodeWord w = .dec) ∧
    (w.toNat % 16 = 0x3 → decodeWord w = .cenc) ∧ (w.toNat % 16 = 0x4 → decodeWord w = .cdec) ∧
    (w.toNat % 16 = 0x5 → decodeWord w = .todig) ∧ (w.toNat % 16 = 0x6 → decodeWord w = .fromdig) ∧
    (w.toNat % 16 = 0x7 → decodeWord w = .map) ∧ (w.toNat % 16 = 0x8 → decodeWord w = .unmap) ∧
    (w.toNat % 16 = 0x9 → decodeWord w = .csum) ∧ (w.toNat % 16 = 0xA → decodeWord w = .frame) ∧
    (w.toNat % 16 = 0xB → decodeWord w = .unframe) ∧
    (w.toNat % 16 = 0x0 ∨ 0xC ≤ w.toNat % 16 → decodeWord w = .illegal w)) ∧
  (∃ legal : List Word, legal.Nodup ∧ legal.length = 11 ∧
    ∀ w : Word, (decodeWord w).isCommand = true ↔ w ∈ legal)

/-- WrittenOutWordsDecode: the words of five commands, the cleared word and a word with a reserved bit set, written out
bit by bit from R91 and R94, decode as the opcode map says. -/
def Obligations.WrittenOutWordsDecode : Prop :=
  decodeWord 0b00000000000000000000000000000001#32 = .enc ∧
  decodeWord 0b00000000000000000000000000000110#32 = .fromdig ∧
  decodeWord 0b00000000000000000000000000001000#32 = .unmap ∧
  decodeWord 0b00000000000000000000000000000100#32 = .cdec ∧
  decodeWord 0b00000000000000000000000000001011#32 = .unframe ∧
  decodeWord 0b00000000000000000000000000000000#32 = .illegal 0#32 ∧
  decodeWord 0b10000000000000000000000000000001#32 = .illegal 0x80000001#32

/-! ## Reset -/

/-- ResetStateHoldsDocumentedValues: in `State.reset` every register the spec gives a reset value holds it, no `IN` byte
is written, no `OUT` byte is specified, the engine is idle and `IRQ` is 0 (10_state.md section 5). Its configuration is
the reference one (log 2), with the `CAPS` word of R24. -/
def Obligations.ResetStateHoldsDocumentedValues : Prop :=
  State.reset.ie = false ∧ State.reset.ctrlWord = 0#32 ∧ State.reset.lastCmd = 0#32 ∧ State.reset.statusWord = 0#32 ∧
  State.reset.inLen = 0#32 ∧ State.reset.outLen = 0#32 ∧ State.reset.errInfo = 0#32 ∧ State.reset.busy = false ∧
  State.reset.irq = false ∧ (∀ i, State.reset.inBuf.read? i = none) ∧ (∀ i, State.reset.outBuf.read? i = none) ∧
  State.reset.readReg .id = 0xB58C0001#32 ∧ State.reset.readReg .caps = 0x01680100#32

/-- PowerOnResetGivesResetValues: a fall of `RST_N` sets no `DONE`; while `RST_N = 0` no host access is admitted and the
engine does nothing; when `RST_N` rises every piece of state has its power-on value, a busy command is gone, and accesses
are admitted again (70_reset_and_hazards.md section 1). Two clauses are the model's choice (log 8): that a fall leaves
`DONE` exactly as it was, and that an access while `RST_N` is low stops as the fault `heldInReset`. The value of `latchedLen`
after the rise is the model's choice too (log 6) and not stated. -/
def Obligations.PowerOnResetGivesResetValues : Prop :=
  (∀ (s : State) (rest : List Event), s.port = .rst false :: rest →
    ∃ t, step s = .next t ∧ t.rstN = false ∧ t.done = s.done ∧ t.cfg = s.cfg ∧ t.port = rest) ∧
  (∀ (s : State) (rest : List Event) (addr w v : Nat), s.rstN = false →
    (s.port = .busRead addr w :: rest ∨ s.port = .busWrite addr w v :: rest) → step s = .fault .heldInReset) ∧
  (∀ (s : State) (rest : List Event), s.rstN = false →
    (s.port = [] → step s = .next s) ∧ (s.port = .engine :: rest → step s = .next { s with port := rest })) ∧
  (∀ (s : State) (rest : List Event), s.rstN = false → s.port = .rst true :: rest →
    ∃ t, step s = .next t ∧ t.rstN = true ∧ t.ie = false ∧ t.lastCmd = 0#32 ∧ t.statusWord = 0#32 ∧ t.busy = false ∧
      t.done = false ∧ t.inLen = 0#32 ∧ t.outLen = 0#32 ∧ t.errInfo = 0#32 ∧ t.irq = false ∧
      (∀ i, t.inBuf.read? i = none) ∧ (∀ i, t.outBuf.read? i = none) ∧ t.cfg = s.cfg ∧ t.port = rest)

/-- SoftResetAbandonsAndClears (R232): a write of `CTRL` with bit 1 set, busy or not, returns the registers to their reset
values, abandons a busy command, leaves every `OUT` byte unspecified, and changes no `IN` byte, written mark or
configuration. -/
def Obligations.SoftResetAbandonsAndClears : Prop :=
  ∀ (s : State) (rest : List Event) (v : Nat), s.rstN = true →
    s.port = .busWrite (s.cfg.base + 0x008) 4 v :: rest → v / 2 % 2 = 1 →
    ∃ t, step s = .next t ∧ t.ie = false ∧ t.lastCmd = 0#32 ∧ t.busy = false ∧ t.done = false ∧ t.wbusy = false ∧
      t.errCode = none ∧ t.inLen = 0#32 ∧ t.outLen = 0#32 ∧ t.errInfo = 0#32 ∧ (∀ i, t.outBuf.read? i = none) ∧
      t.inBuf = s.inBuf ∧ t.cfg = s.cfg ∧ t.readReg .id = s.readReg .id ∧ t.readReg .caps = s.readReg .caps ∧
      t.rstN = s.rstN ∧ t.port = rest

/-! ## The invariant -/

/-- ResetMeetsInvariant: the state after reset meets the invariant. -/
def Obligations.ResetMeetsInvariant : Prop := State.reset.Inv

/-- StepKeepsInvariant: from every state that meets the invariant, whatever reaches the block, a step that answers a next
state keeps it: canonical buffers, `OUT` specified exactly below `OUT_LEN <= OUT_CAP`, never `BUSY` and `DONE` together,
a busy engine with a clean record, its latched length and its input fixed. -/
def Obligations.StepKeepsInvariant : Prop :=
  ∀ s t : State, s.Inv → step s = .next t → t.Inv

/-- ConfigurationNeverChanges: no step changes `BASE` or `IN_CAP` (10_state.md section 4). -/
def Obligations.ConfigurationNeverChanges : Prop :=
  ∀ s t : State, step s = .next t → t.cfg = s.cfg

/-! ## The engine's step -/

/-- StepRunsDecodedCommand: with the engine busy, out of reset, and its turn next (or nothing left at the port), the step
is `exec` of the decoded command word; an idle engine's turn changes nothing. That an empty port gives the engine's turn and
that an idle engine's turn is a step at all are the model's choice (log 1); so is that the decoder is given `LAST_CMD` as its
four bytes in lane order (log 11). -/
def Obligations.StepRunsDecodedCommand : Prop :=
  (∀ (s : State) (i : Instr) (more : List Byte), s.rstN = true → s.busy = true → decodeBytes s.fetch = .command i more →
    (s.port = [] → step s = exec i s) ∧
    (∀ rest, s.port = .engine :: rest → step s = exec i { s with port := rest })) ∧
  (∀ s : State, s.busy = false →
    (s.port = [] → step s = .next s) ∧ (∀ rest, s.port = .engine :: rest → step s = .next { s with port := rest })) ∧
  (∀ s : State, s.fetch = [s.lastCmd.extractLsb' 0 8, s.lastCmd.extractLsb' 8 8, s.lastCmd.extractLsb' 16 8,
    s.lastCmd.extractLsb' 24 8])

/-- InputIsTheWrittenBytes: when `IN[0:n]` is written, with `n` the latched length, the bytes a command works on are
exactly those bytes (30_encoding.md section 1). -/
def Obligations.InputIsTheWrittenBytes : Prop :=
  ∀ s : State, (∀ i, i < s.latchedLen.toNat → ∃ x, s.inBuf.read? i = some x) →
    s.inputBytes.length = s.latchedLen.toNat ∧ ∀ i, i < s.latchedLen.toNat → s.inputBytes[i]? = s.inBuf.read? i

/-- EveryCommandCompletes: the complete step of every instruction, legal or not, answers a next state from every state,
with `BUSY = 0`, `DONE = 1` and `IRQ = CTRL.IE` (60_exceptions.md sections 1 and 3). -/
def Obligations.EveryCommandCompletes : Prop :=
  ∀ (i : Instr) (s : State), ∃ t, exec i s = .next t ∧ t.busy = false ∧ t.done = true ∧ t.irq = s.ie

/-- CompletionIsContained: a completion changes only the record: `IN`, its written marks, `IN_LEN`, `LAST_CMD`, `CTRL`,
`WBUSY` and everything else stay (60_exceptions.md section 2, R208's containment). -/
def Obligations.CompletionIsContained : Prop :=
  ∀ (i : Instr) (s t : State), exec i s = .next t → s.SameOutsideRecord t

/-- ResultDependsOnlyOnInput: two states with the same latched length, the same `IN_CAP` and the same written input give a
command the same record, whatever else differs (60_exceptions.md section 1, the last sentence of R203). -/
def Obligations.ResultDependsOnlyOnInput : Prop :=
  ∀ (i : Instr) (s₁ s₂ t₁ t₂ : State), s₁.latchedLen = s₂.latchedLen → s₁.cfg.inCap = s₂.cfg.inCap →
    (∀ k, k < s₁.latchedLen.toNat → ∃ x, s₁.inBuf.read? k = some x ∧ s₂.inBuf.read? k = some x) →
    exec i s₁ = .next t₁ → exec i s₂ = .next t₂ →
    t₁.errCode = t₂.errCode ∧ t₁.errInfo = t₂.errInfo ∧ t₁.outLen = t₂.outLen ∧
      ∀ k, t₁.outBuf.read? k = t₂.outBuf.read? k

/-- PollingSeesCompletion: a busy engine out of reset whose port holds any number of engine-free `STATUS` reads has
completed one step after the last of them (60_exceptions.md section 1: a busy engine completes unless a reset comes
first). That the completion is the step after the last entry, when the port is empty, is the model's choice (log 1): the
spec leaves its place open. -/
def Obligations.PollingSeesCompletion : Prop :=
  ∀ (k : Nat) (s : State), s.rstN = true → s.busy = true →
    s.port = List.replicate k (.busRead (s.cfg.base + 0x010) 4) →
    ∃ t, core.run (k + 1) s = .next t ∧ t.busy = false ∧ t.done = true ∧ t.lastCmd = s.lastCmd ∧ t.inBuf = s.inBuf

/-! ## Accept -/

/-- CommandWriteAccepts (R201): a `CMD` write while idle. It is the model fault exactly when the word is a legal command,
`IN_LEN <= IN_CAP` and some byte of `IN[0:IN_LEN]` is unwritten; otherwise the record is cleared, `OUT` is unspecified,
`LAST_CMD` and the latched length are set, `BUSY` is 1, and nothing else changes (`WBUSY` in particular). -/
def Obligations.CommandWriteAccepts : Prop :=
  ∀ (s : State) (rest : List Event) (v : Nat), s.rstN = true → s.busy = false →
    s.port = .busWrite (s.cfg.base + 0x00C) 4 v :: rest →
    (((decodeWord (BitVec.ofNat 32 v)).isCommand = true ∧ s.inLen.toNat ≤ s.cfg.inCap ∧
        ∃ i, i < s.inLen.toNat ∧ s.inBuf.read? i = none) → step s = .fault .unwrittenInput) ∧
    (¬((decodeWord (BitVec.ofNat 32 v)).isCommand = true ∧ s.inLen.toNat ≤ s.cfg.inCap ∧
        ∃ i, i < s.inLen.toNat ∧ s.inBuf.read? i = none) →
      step s = .next { s with
        lastCmd := BitVec.ofNat 32 v
        latchedLen := s.inLen
        busy := true
        done := false
        errCode := none
        errInfo := 0#32
        outLen := 0#32
        outBuf := []
        reply := none
        port := rest })

/-- BusyBlockIgnoresWrites (R240): while busy, an admitted write of `CMD`, `IN_LEN` or the `IN` window changes nothing but
`WBUSY`, which it sets; writes of `CTRL` and `STATUS` act and do not set it; writes of the read-only registers change
nothing. -/
def Obligations.BusyBlockIgnoresWrites : Prop :=
  ∀ (s : State) (rest : List Event) (o w v : Nat), s.rstN = true → s.busy = true →
    s.port = .busWrite (s.cfg.base + o) w v :: rest →
    ((w = 4 ∧ (o = 0x00C ∨ o = 0x014)) ∨ AdmittedBuffer 0x1000 s.cfg.inCap o w →
      step s = .next { s with wbusy := true, reply := none, port := rest }) ∧
    (w = 4 → o = 0x008 → v / 2 % 2 = 0 →
      step s = .next { s with ie := decide (v % 2 = 1), reply := none, port := rest }) ∧
    (w = 4 → o = 0x008 → v / 2 % 2 = 1 → ∃ t, step s = .next t ∧ t.busy = false ∧ t.wbusy = false) ∧
    (w = 4 → o = 0x010 → step s = .next { s with
      done := s.done && decide (v / 2 % 2 = 0)
      wbusy := s.wbusy && decide (v / 8 % 2 = 0)
      reply := none
      port := rest }) ∧
    (w = 4 → (o = 0x000 ∨ o = 0x004 ∨ o = 0x018 ∨ o = 0x01C) → step s = .next { s with reply := none, port := rest })

/-- IllegalWordCompletesWithError (R96): a word that is no command, written while idle, is accepted whatever `IN` and
`IN_LEN` hold (it never is the model fault) and completes with `ILLEGAL_COMMAND`; written while busy it is ignored like any
`CMD` write. -/
def Obligations.IllegalWordCompletesWithError : Prop :=
  (∀ (s : State) (rest : List Event) (v : Nat), s.rstN = true →
    (∃ w, decodeWord (BitVec.ofNat 32 v) = .illegal w) → s.port = .busWrite (s.cfg.base + 0x00C) 4 v :: rest →
    (s.busy = false → ∃ t, step s = .next t ∧ t.busy = true ∧ t.lastCmd = BitVec.ofNat 32 v) ∧
    (s.busy = true → step s = .next { s with wbusy := true, reply := none, port := rest })) ∧
  (∀ (s : State) (w : Word), ∃ t, exec (.illegal w) s = .next t ∧ s.CompletedErr t .illegalCommand 0)

/-- OverlongInputCompletesWithError: a legal command whose latched length exceeds `IN_CAP`, all 32 bits compared, completes
with `IN_LENGTH` and `ERR_INFO = 0`, whatever `IN` holds (60_exceptions.md section 2, R206's second check). -/
def Obligations.OverlongInputCompletesWithError : Prop :=
  ∀ (i : Instr) (s : State), i.isCommand = true → s.cfg.inCap < s.latchedLen.toNat →
    ∃ t, exec i s = .next t ∧ s.CompletedErr t .inLength 0

/-! ## Results of the commands -/

/-- TodigResult (R111): word 5; the output is the base-58 notation of the big-endian value, no leading zero digit, at most
`floor(n * 138 / 100) + 1` digits. -/
def Obligations.TodigResult : Prop :=
  decodeWord 0x00000005#32 = .todig ∧
  ∀ s : State, s.InputFits → ∃ t out, exec .todig s = .next t ∧ s.CompletedOk t out ∧
    IsNotation 58 (valBE s.inputBytes) out ∧ out.length ≤ s.latchedLen.toNat * 138 / 100 + 1

/-- FromdigResult (R113): word 6; if every byte is a digit the output is the minimal big-endian bytes of the value the
digits denote, at most `n` bytes; otherwise `DIGIT_RANGE` with the first byte above 57 and its index. -/
def Obligations.FromdigResult : Prop :=
  decodeWord 0x00000006#32 = .fromdig ∧
  (∀ s : State, s.InputFits → (∀ x ∈ s.inputBytes, x.toNat ≤ 57) →
    ∃ t out, exec .fromdig s = .next t ∧ s.CompletedOk t out ∧
      IsNotation 256 (valRadix 58 s.inputBytes) out ∧ out.length ≤ s.latchedLen.toNat) ∧
  (∀ (s : State) (pre post : List Byte) (x : Byte), s.InputFits → s.inputBytes = pre ++ x :: post →
    (∀ y ∈ pre, y.toNat ≤ 57) → 57 < x.toNat →
    ∃ t, exec .fromdig s = .next t ∧ s.CompletedErr t .digitRange (x.toNat * 65536 + pre.length))

/-- MapResult (R134): word 7; if every byte is a digit the output is the alphabet's symbol of each, in order, `n` bytes;
otherwise `DIGIT_RANGE` with the first byte above 57 and its index. -/
def Obligations.MapResult : Prop :=
  decodeWord 0x00000007#32 = .map ∧
  (∀ s : State, s.InputFits → (∀ x ∈ s.inputBytes, x.toNat ≤ 57) →
    ∃ t out, exec .map s = .next t ∧ s.CompletedOk t out ∧ out.length = s.latchedLen.toNat ∧
      ∀ (i : Nat) (x : Byte), s.inputBytes[i]? = some x → out[i]? = alphabet[x.toNat]?) ∧
  (∀ (s : State) (pre post : List Byte) (x : Byte), s.InputFits → s.inputBytes = pre ++ x :: post →
    (∀ y ∈ pre, y.toNat ≤ 57) → 57 < x.toNat →
    ∃ t, exec .map s = .next t ∧ s.CompletedErr t .digitRange (x.toNat * 65536 + pre.length))

/-- UnmapResult (R136): word 8; if every byte is a symbol code the output is the digit of each, in order, `n` bytes;
otherwise `INVALID_CHARACTER` with the first byte that is none and its index. -/
def Obligations.UnmapResult : Prop :=
  decodeWord 0x00000008#32 = .unmap ∧
  (∀ s : State, s.InputFits → (∀ c ∈ s.inputBytes, validSymbol c = true) →
    ∃ t out, exec .unmap s = .next t ∧ s.CompletedOk t out ∧ out.length = s.latchedLen.toNat ∧
      ∀ (i : Nat) (c : Byte), s.inputBytes[i]? = some c → out[i]? = dig c) ∧
  (∀ (s : State) (pre post : List Byte) (c : Byte), s.InputFits → s.inputBytes = pre ++ c :: post →
    (∀ y ∈ pre, validSymbol y = true) → validSymbol c = false →
    ∃ t, exec .unmap s = .next t ∧ s.CompletedErr t .invalidCharacter (c.toNat * 65536 + pre.length))

/-- EncResult (R150): word 1; the output is one `'1'` per leading zero byte, then the symbols of the base-58 notation of
the value, at most `floor(n * 138 / 100) + 1` characters. -/
def Obligations.EncResult : Prop :=
  decodeWord 0x00000001#32 = .enc ∧
  ∀ s : State, s.InputFits → ∃ t d, exec .enc s = .next t ∧ IsNotation 58 (valBE s.inputBytes) d ∧
    s.CompletedOk t (List.replicate (s.inputBytes.takeWhile (· == 0x00#8)).length 0x31#8 ++ d.map sym) ∧
    t.outLen.toNat ≤ s.latchedLen.toNat * 138 / 100 + 1

/-- DecResult (R152): word 2; a valid string gives one zero byte per `'1'` of the leading run, then the minimal big-endian
bytes of the value of all its digits, at most `n` bytes; otherwise `INVALID_CHARACTER` with the first invalid byte and its index. -/
def Obligations.DecResult : Prop :=
  decodeWord 0x00000002#32 = .dec ∧
  (∀ s : State, s.InputFits → (∀ c ∈ s.inputBytes, validSymbol c = true) →
    ∃ t raw, exec .dec s = .next t ∧ IsNotation 256 (valRadix 58 (s.inputBytes.filterMap dig)) raw ∧
      s.CompletedOk t (List.replicate (s.inputBytes.takeWhile (· == 0x31#8)).length 0x00#8 ++ raw) ∧
      t.outLen.toNat ≤ s.latchedLen.toNat) ∧
  (∀ (s : State) (pre post : List Byte) (c : Byte), s.InputFits → s.inputBytes = pre ++ c :: post →
    (∀ y ∈ pre, validSymbol y = true) → validSymbol c = false →
    ∃ t, exec .dec s = .next t ∧ s.CompletedErr t .invalidCharacter (c.toNat * 65536 + pre.length))

/-- CsumResult (R171): word 9; the output is the first 4 bytes of the hash of the hash of the input. -/
def Obligations.CsumResult : Prop :=
  decodeWord 0x00000009#32 = .csum ∧
  ∀ s : State, s.InputFits → ∃ t, exec .csum s = .next t ∧ t.outLen = 4#32 ∧
    s.CompletedOk t ((Config.hash256 (Config.hash256 s.inputBytes).toList).toList.take 4)

/-- FrameResult (R172): word 0xA; the output is the input followed by its 4 checksum bytes. -/
def Obligations.FrameResult : Prop :=
  decodeWord 0x0000000A#32 = .frame ∧
  ∀ s : State, s.InputFits → ∃ t, exec .frame s = .next t ∧ t.outLen.toNat = s.latchedLen.toNat + 4 ∧
    s.CompletedOk t (s.inputBytes ++ (Config.hash256 (Config.hash256 s.inputBytes).toList).toList.take 4)

/-- UnframeResult (R174): word 0xB; an input of fewer than 4 bytes is `TOO_SHORT` with its length; otherwise, if the last 4
bytes are the checksum of the rest, the output is the rest, else `CHECKSUM_MISMATCH`. -/
def Obligations.UnframeResult : Prop :=
  decodeWord 0x0000000B#32 = .unframe ∧
  (∀ s : State, s.InputFits → s.latchedLen.toNat < 4 →
    ∃ t, exec .unframe s = .next t ∧ s.CompletedErr t .tooShort s.latchedLen.toNat) ∧
  (∀ (s : State) (payload claimed : List Byte), s.InputFits → s.inputBytes = payload ++ claimed → claimed.length = 4 →
    (claimed = (Config.hash256 (Config.hash256 payload).toList).toList.take 4 →
      ∃ t, exec .unframe s = .next t ∧ s.CompletedOk t payload) ∧
    (claimed ≠ (Config.hash256 (Config.hash256 payload).toList).toList.take 4 →
      ∃ t, exec .unframe s = .next t ∧ s.CompletedErr t .checksumMismatch 0))

/-- CencResult (R176): word 3; the output is the Base58 encoding of the input followed by its checksum: one `'1'` per
leading zero byte of that frame, then the symbols of the notation of its value, at most
`floor((n + 4) * 138 / 100) + 1 <= OUT_CAP` characters. -/
def Obligations.CencResult : Prop :=
  decodeWord 0x00000003#32 = .cenc ∧
  ∀ (s : State) (f : List Byte), s.InputFits →
    f = s.inputBytes ++ (Config.hash256 (Config.hash256 s.inputBytes).toList).toList.take 4 →
    ∃ t d, exec .cenc s = .next t ∧ IsNotation 58 (valBE f) d ∧
      s.CompletedOk t (List.replicate (f.takeWhile (· == 0x00#8)).length 0x31#8 ++ d.map sym) ∧
      t.outLen.toNat ≤ (s.latchedLen.toNat + 4) * 138 / 100 + 1 ∧
      (s.latchedLen.toNat + 4) * 138 / 100 + 1 ≤ s.cfg.outCap

/-- CdecResult (R178): word 4; the first invalid byte is `INVALID_CHARACTER`; a valid string is decoded as `DEC` decodes it,
and the decoded bytes are `TOO_SHORT` with their number below 4, the payload if the last 4 are its checksum, and
`CHECKSUM_MISMATCH` otherwise. -/
def Obligations.CdecResult : Prop :=
  decodeWord 0x00000004#32 = .cdec ∧
  (∀ (s : State) (pre post : List Byte) (c : Byte), s.InputFits → s.inputBytes = pre ++ c :: post →
    (∀ y ∈ pre, validSymbol y = true) → validSymbol c = false →
    ∃ t, exec .cdec s = .next t ∧ s.CompletedErr t .invalidCharacter (c.toNat * 65536 + pre.length)) ∧
  (∀ (s : State) (raw f : List Byte), s.InputFits → (∀ c ∈ s.inputBytes, validSymbol c = true) →
    IsNotation 256 (valRadix 58 (s.inputBytes.filterMap dig)) raw →
    f = List.replicate (s.inputBytes.takeWhile (· == 0x31#8)).length 0x00#8 ++ raw →
    (f.length < 4 → ∃ t, exec .cdec s = .next t ∧ s.CompletedErr t .tooShort f.length) ∧
    (∀ payload claimed : List Byte, f = payload ++ claimed → claimed.length = 4 →
      (claimed = (Config.hash256 (Config.hash256 payload).toList).toList.take 4 →
        ∃ t, exec .cdec s = .next t ∧ s.CompletedOk t payload) ∧
      (claimed ≠ (Config.hash256 (Config.hash256 payload).toList).toList.take 4 →
        ∃ t, exec .cdec s = .next t ∧ s.CompletedErr t .checksumMismatch 0)))

/-! ## Laws of the functions -/

/-- NotationIsUnique: a number has exactly one notation in a radix from 2 to 256, so "the base-58 notation" and "the
minimal big-endian bytes" fix the output (00_scope.md section 6, 40_converter.md section 1). -/
def Obligations.NotationIsUnique : Prop :=
  ∀ (b v : Nat), 2 ≤ b → b ≤ 256 → ∃ d, IsNotation b v d ∧ ∀ d', IsNotation b v d' → d' = d

/-- ValueIsPositionalSum: the value of a sequence is the sum of each byte times the radix to the number of bytes after it
(00_scope.md section 6, `valBE`). -/
def Obligations.ValueIsPositionalSum : Prop :=
  ∀ (b : Nat) (s : List Byte),
    valRadix b s = ∑ i : Fin s.length, (s.get i).toNat * b ^ (s.length - 1 - i.val)

/-- AlphabetIsTheStatedString (R130): the alphabet is the code sequence of the stated 58-character string, and `sym` of a
digit is the code at its index. -/
def Obligations.AlphabetIsTheStatedString : Prop :=
  alphabet = "123456789ABCDEFGHJKLMNPQRSTUVWXYZabcdefghijkmnopqrstuvwxyz".toList.map (fun c => BitVec.ofNat 8 c.toNat) ∧
  alphabet.length = 58 ∧ ∀ d : Byte, d.toNat ≤ 57 → alphabet[d.toNat]? = some (sym d)

/-- MapperIsBijective (R132): `sym` is the symbol at the digit's index of the alphabet; `dig` follows the six code ranges
and is INVALID for every other byte; exactly 58 bytes are valid; `dig` and `sym` undo each other. -/
def Obligations.MapperIsBijective : Prop :=
  (∀ d : Byte, d.toNat ≤ 57 → alphabet[d.toNat]? = some (sym d) ∧ dig (sym d) = some d) ∧
  (∀ c : Byte,
    (0x31 ≤ c.toNat ∧ c.toNat ≤ 0x39 → dig c = some (BitVec.ofNat 8 (c.toNat - 0x31))) ∧
    (0x41 ≤ c.toNat ∧ c.toNat ≤ 0x48 → dig c = some (BitVec.ofNat 8 (c.toNat - 0x38))) ∧
    (0x4A ≤ c.toNat ∧ c.toNat ≤ 0x4E → dig c = some (BitVec.ofNat 8 (c.toNat - 0x39))) ∧
    (0x50 ≤ c.toNat ∧ c.toNat ≤ 0x5A → dig c = some (BitVec.ofNat 8 (c.toNat - 0x3A))) ∧
    (0x61 ≤ c.toNat ∧ c.toNat ≤ 0x6B → dig c = some (BitVec.ofNat 8 (c.toNat - 0x40))) ∧
    (0x6D ≤ c.toNat ∧ c.toNat ≤ 0x7A → dig c = some (BitVec.ofNat 8 (c.toNat - 0x41))) ∧
    (c.toNat < 0x31 ∨ (0x39 < c.toNat ∧ c.toNat < 0x41) ∨ c.toNat = 0x49 ∨ c.toNat = 0x4F ∨
      (0x5A < c.toNat ∧ c.toNat < 0x61) ∨ c.toNat = 0x6C ∨ 0x7A < c.toNat → dig c = none)) ∧
  (∀ c d : Byte, dig c = some d → d.toNat ≤ 57 ∧ sym d = c) ∧
  (((List.range 256).map (BitVec.ofNat 8)).filter validSymbol).length = 58

/-- EncodeKeepsLeadingZeros (R151): `k` zero bytes before a sequence with a non-zero first byte (or none) encode to `k`
symbols `'1'` before its encoding, which itself does not start with `'1'`. -/
def Obligations.EncodeKeepsLeadingZeros : Prop :=
  ∀ (k : Nat) (b : List Byte), b.head? ≠ some 0x00#8 →
    ∃ out, encResult b = .ok out ∧ out.head? ≠ some 0x31#8 ∧
      encResult (List.replicate k 0x00#8 ++ b) = .ok (List.replicate k 0x31#8 ++ out)

/-- DecodeUndoesEncode (R154): decoding the encoding of any byte sequence gives it back. -/
def Obligations.DecodeUndoesEncode : Prop :=
  ∀ b out : List Byte, encResult b = .ok out → decResult out = .ok b

/-- EncodeUndoesDecode (R155): encoding the decoding of any valid string gives the string back, so `DEC` is a bijection from
valid strings onto byte sequences. -/
def Obligations.EncodeUndoesDecode : Prop :=
  (∀ s : List Byte, (∀ c ∈ s, validSymbol c = true) → ∃ b, decResult s = .ok b ∧ encResult b = .ok s) ∧
  (∀ b : List Byte, ∃ s, (∀ c ∈ s, validSymbol c = true) ∧ decResult s = .ok b ∧
    ∀ s', decResult s' = .ok b → s' = s)

/-- UnframeUndoesFrame (R175): verifying and stripping a frame gives its payload. -/
def Obligations.UnframeUndoesFrame : Prop :=
  ∀ p out : List Byte, frameResult p = .ok out → unframeResult out = .ok p

/-- CheckDecodeUndoesCheckEncode (R179): `CDEC` is `DEC` followed by `UNFRAME`, and it undoes `CENC`. -/
def Obligations.CheckDecodeUndoesCheckEncode : Prop :=
  (∀ s : List Byte, (∀ k info, decResult s = .err k info → cdecResult s = .err k info) ∧
    (∀ f, decResult s = .ok f → cdecResult s = unframeResult f)) ∧
  (∀ p out : List Byte, cencResult p = .ok out → cdecResult out = .ok p)

/-- ConverterRoundTrip (R115): converting to digits and back gives the input without its leading zero bytes; converting
digits to bytes and back gives the digits without their leading zeros; no digit comes out exactly when the value is 0. -/
def Obligations.ConverterRoundTrip : Prop :=
  (∀ s : List Byte, fromDigits (toDigits s) = minBE (valBE s) ∧ minBE (valBE s) = s.drop (lz s)) ∧
  (∀ d : List Byte, (∀ x ∈ d, x.toNat ≤ 57) → toDigits (fromDigits d) = d.drop (lz d)) ∧
  (∀ s : List Byte, (toDigits s).length = 0 ↔ valBE s = 0)

/-- EncodingFitsItsBound (R156): an encoding or digit sequence of `n` bytes has at most `floor(n * 138 / 100) + 1` bytes, a
`CENC` result at most that of `n + 4`, and no command's result is longer than `OUT_CAP`. -/
def Obligations.EncodingFitsItsBound : Prop :=
  (∀ inb : List Byte, (toDigits inb).length ≤ inb.length * 138 / 100 + 1) ∧
  (∀ inb out : List Byte, encResult inb = .ok out → out.length ≤ inb.length * 138 / 100 + 1) ∧
  (∀ inb out : List Byte, cencResult inb = .ok out → out.length ≤ (inb.length + 4) * 138 / 100 + 1) ∧
  (∀ (i : Instr) (s t : State), exec i s = .next t → t.outLen.toNat ≤ s.cfg.outCap)

/-- DecodingIsNoLonger (R157): a decoded or digit-converted result is no longer than its input. -/
def Obligations.DecodingIsNoLonger : Prop :=
  ∀ inb out : List Byte, (decResult inb = .ok out ∨ fromdigResult inb = .ok out) → out.length ≤ inb.length

/-- DivisionEngineComputesToDigits: the long-division engine on 8-bit limbs and a 14-bit accumulator leaves exactly the
digits of the exact conversion, for every input (40_converter.md section 3, R117). -/
def Obligations.DivisionEngineComputesToDigits : Prop :=
  ∀ inb : List Byte, engineToDigits inb = toDigits inb

/-- MultiplyEngineComputesFromDigits: the multiply-accumulate engine leaves exactly the minimal bytes of the exact
conversion, for every digit sequence (40_converter.md section 3, R118). -/
def Obligations.MultiplyEngineComputesFromDigits : Prop :=
  ∀ d : List Byte, (∀ x ∈ d, x.toNat ≤ 57) → engineFromDigits d = fromDigits d

/-! ## The bus port -/

/-- PortAdmitsExactly: inside the region an access is a bus error exactly when it is not an aligned 32-bit access of the
register window or an aligned 1, 2 or 4 byte access wholly inside a buffer, for writes the input buffer only
(20_memory.md sections 1 and 2: R62, R63, R65, R67). -/
def Obligations.PortAdmitsExactly : Prop :=
  ∀ (s : State) (rest : List Event) (o w v : Nat), s.rstN = true → o < 0x4000 →
    (s.port = .busRead (s.cfg.base + o) w :: rest →
      (AdmittedRegister o w ∨ AdmittedBuffer 0x1000 s.cfg.inCap o w ∨ AdmittedBuffer 0x2000 s.cfg.outCap o w →
        ∃ t, step s = .next t) ∧
      (¬(AdmittedRegister o w ∨ AdmittedBuffer 0x1000 s.cfg.inCap o w ∨ AdmittedBuffer 0x2000 s.cfg.outCap o w) →
        step s = .fault .busError)) ∧
    (s.port = .busWrite (s.cfg.base + o) w v :: rest →
      (step s = .fault .busError ↔ ¬(AdmittedRegister o w ∨ AdmittedBuffer 0x1000 s.cfg.inCap o w)))

/-- RegisterReadReturnsItsWord: a 32-bit read at a register's offset answers its word and changes nothing: `ID` the
constant, `CAPS` the capacities, `CTRL` the enable bit only, `CMD` the last accepted word, and the others as stored
(10_state.md section 2). -/
def Obligations.RegisterReadReturnsItsWord : Prop :=
  ∀ (s : State) (rest : List Event) (o value : Nat), s.rstN = true → s.port = .busRead (s.cfg.base + o) 4 :: rest →
    ((o = 0x000 ∧ value = 0xB58C0001) ∨ (o = 0x004 ∧ value = s.cfg.outCap * 0x10000 + s.cfg.inCap) ∨
      (o = 0x008 ∧ value = s.ie.toNat) ∨ (o = 0x00C ∧ value = s.lastCmd.toNat) ∨
      (o = 0x010 ∧ value = s.statusWord.toNat) ∨ (o = 0x014 ∧ value = s.inLen.toNat) ∨
      (o = 0x018 ∧ value = s.outLen.toNat) ∨ (o = 0x01C ∧ value = s.errInfo.toNat)) →
    step s = .next { s with reply := some { width := 4, value := value }, port := rest }

/-- BufferReadIsLittleEndian: an admitted read of a buffer answers a value below `256^w` whose byte lane `j` is the byte at
index `i + j` wherever that byte has a value, and changes nothing (20_memory.md section 2, R64; section 3, R68). The lanes
of unspecified bytes are free values (log 4). -/
def Obligations.BufferReadIsLittleEndian : Prop :=
  ∀ (s : State) (rest : List Event) (window cap o w : Nat) (m : Memory), s.rstN = true →
    s.port = .busRead (s.cfg.base + o) w :: rest →
    ((window = 0x1000 ∧ cap = s.cfg.inCap ∧ m = s.inBuf) ∨ (window = 0x2000 ∧ cap = s.cfg.outCap ∧ m = s.outBuf)) →
    AdmittedBuffer window cap o w →
    ∃ value draws, step s = .next { s with
        reply := some { width := w, value := value }
        draws := draws
        port := rest } ∧
      value < 256 ^ w ∧
      ∀ (j : Nat) (x : Byte), j < w → m.read? (o - window + j) = some x → value / 256 ^ j % 256 = x.toNat

/-- InputWriteStoresItsLanes: an admitted write of the `IN` window while idle stores lane `j` of the data at index `i + j`
for each byte it covers, marks those bytes written, and changes nothing else (20_memory.md section 3, R69). -/
def Obligations.InputWriteStoresItsLanes : Prop :=
  ∀ (s : State) (rest : List Event) (o w v : Nat), s.rstN = true → s.busy = false →
    s.port = .busWrite (s.cfg.base + o) w v :: rest → AdmittedBuffer 0x1000 s.cfg.inCap o w →
    ∃ m, step s = .next { s with inBuf := m, reply := none, port := rest } ∧
      (∀ j, j < w → m.read? (o - 0x1000 + j) = some (BitVec.ofNat 8 (v / 256 ^ j % 256))) ∧
      (∀ k, (k < o - 0x1000 ∨ o - 0x1000 + w ≤ k) → m.read? k = s.inBuf.read? k)

/-- ControlRegisterRule (R25): a read of `CTRL` shows `IE` in bit 0 and 0 elsewhere; a write sets `IE` to bit 0, or, with
bit 1 set, leaves `IE` 0 after the soft reset; busy or not, it does not set `WBUSY`. -/
def Obligations.ControlRegisterRule : Prop :=
  (∀ s : State, s.ctrlWord.getLsbD 0 = s.ie ∧ ∀ i, 1 ≤ i → s.ctrlWord.getLsbD i = false) ∧
  (∀ (s : State) (rest : List Event) (v : Nat), s.rstN = true →
    s.port = .busWrite (s.cfg.base + 0x008) 4 v :: rest →
    (v / 2 % 2 = 0 → step s = .next { s with ie := decide (v % 2 = 1), reply := none, port := rest }) ∧
    (v / 2 % 2 = 1 → ∃ t, step s = .next t ∧ t.ie = false ∧ t.lastCmd = 0#32 ∧ t.busy = false ∧ t.done = false ∧
      t.wbusy = false ∧ t.errCode = none ∧ t.inLen = 0#32 ∧ t.outLen = 0#32 ∧ t.errInfo = 0#32 ∧ t.inBuf = s.inBuf ∧
      (∀ i, t.outBuf.read? i = none)))

/-- StatusRegisterRule (R27): bit 0 is `BUSY`, bit 1 `DONE`, bit 2 says that `ERRCODE` is not 0, bit 3 is `WBUSY`, bits
11:8 are the code of R205, every other bit is 0; a write clears `DONE` with bit 1 and `WBUSY` with bit 3 and does nothing
else, busy or not. -/
def Obligations.StatusRegisterRule : Prop :=
  (∀ s : State, s.statusWord.getLsbD 0 = s.busy ∧ s.statusWord.getLsbD 1 = s.done ∧
    s.statusWord.getLsbD 2 = s.errCode.isSome ∧ s.statusWord.getLsbD 3 = s.wbusy ∧
    s.statusWord.toNat / 256 % 16 =
      (match s.errCode with
        | none => 0
        | some .invalidCharacter => 1
        | some .tooShort => 2
        | some .checksumMismatch => 3
        | some .illegalCommand => 4
        | some .digitRange => 5
        | some .inLength => 6) ∧
    (∀ i, (4 ≤ i ∧ i ≤ 7) ∨ 12 ≤ i → s.statusWord.getLsbD i = false)) ∧
  (∀ (s : State) (rest : List Event) (v : Nat), s.rstN = true →
    s.port = .busWrite (s.cfg.base + 0x010) 4 v :: rest →
    step s = .next { s with
      done := s.done && decide (v / 2 % 2 = 0)
      wbusy := s.wbusy && decide (v / 8 % 2 = 0)
      reply := none
      port := rest })

/-- InputLengthIsStoredAsWritten: a write of `IN_LEN` while idle stores all 32 bits and changes nothing else, and no value
is refused (10_state.md section 2, R33). -/
def Obligations.InputLengthIsStoredAsWritten : Prop :=
  ∀ (s : State) (rest : List Event) (v : Nat), s.rstN = true → s.busy = false → v < 2 ^ 32 →
    s.port = .busWrite (s.cfg.base + 0x014) 4 v :: rest →
    ∃ len : Word, step s = .next { s with inLen := len, reply := none, port := rest } ∧ len.toNat = v

/-- ReadOnlyAndReservedBits (R36): writes of `ID`, `CAPS`, `OUT_LEN` and `ERR_INFO` are ignored without a bus error; two
writes of `CTRL` or `STATUS` that differ in reserved bits only do the same; the reserved bits of `CTRL`, `STATUS` and
`ERR_INFO` read 0 in every state that meets the invariant. -/
def Obligations.ReadOnlyAndReservedBits : Prop :=
  (∀ (s : State) (rest : List Event) (o v : Nat), s.rstN = true →
    s.port = .busWrite (s.cfg.base + o) 4 v :: rest → (o = 0x000 ∨ o = 0x004 ∨ o = 0x018 ∨ o = 0x01C) →
    step s = .next { s with reply := none, port := rest }) ∧
  (∀ (s : State) (rest : List Event) (v v' : Nat),
    (v % 4 = v' % 4 → step { s with port := .busWrite (s.cfg.base + 0x008) 4 v :: rest } =
      step { s with port := .busWrite (s.cfg.base + 0x008) 4 v' :: rest }) ∧
    (v / 2 % 2 = v' / 2 % 2 → v / 8 % 2 = v' / 8 % 2 →
      step { s with port := .busWrite (s.cfg.base + 0x010) 4 v :: rest } =
      step { s with port := .busWrite (s.cfg.base + 0x010) 4 v' :: rest })) ∧
  (∀ s : State, s.Inv →
    (∀ i, 2 ≤ i → (s.readReg .ctrl).getLsbD i = false) ∧
    (∀ i, (4 ≤ i ∧ i ≤ 7) ∨ 12 ≤ i → (s.readReg .status).getLsbD i = false) ∧
    (∀ i, 24 ≤ i → (s.readReg .errInfo).getLsbD i = false))

/-- ReadsHaveNoSideEffect: a read that answers changes no piece of the block's state, only the model's own reply, draw
counter and port (20_memory.md section 3, the first clause of R71). -/
def Obligations.ReadsHaveNoSideEffect : Prop :=
  ∀ (s t : State) (rest : List Event) (addr w : Nat), s.port = .busRead addr w :: rest → step s = .next t →
    t = { s with reply := t.reply, draws := t.draws, port := rest }

/-! ## Interrupt, order of events, lifetime of the record -/

/-- InterruptFollowsEnableAndDone: `IRQ` is `CTRL.IE and STATUS.DONE`; setting `IE` while `DONE = 1` raises it at once,
clearing `IE` lowers it and keeps `DONE`, and writing 1 to `STATUS` bit 1, an accept or either reset leaves it low
(60_exceptions.md section 3: R210, R211). -/
def Obligations.InterruptFollowsEnableAndDone : Prop :=
  (∀ s : State, s.irq = true ↔ s.ie = true ∧ s.done = true) ∧
  (∀ (s t : State) (rest : List Event) (v : Nat), s.rstN = true → step s = .next t →
    (s.port = .busWrite (s.cfg.base + 0x008) 4 v :: rest →
      (v % 4 = 1 → s.done = true → t.irq = true) ∧ (v % 4 = 0 → t.irq = false ∧ t.done = s.done) ∧
      (v / 2 % 2 = 1 → t.irq = false ∧ t.done = false)) ∧
    (s.port = .busWrite (s.cfg.base + 0x010) 4 v :: rest → v / 2 % 2 = 1 → t.irq = false ∧ t.done = false) ∧
    (s.port = .busWrite (s.cfg.base + 0x00C) 4 v :: rest → s.busy = false → t.irq = false ∧ t.done = false)) ∧
  (∀ (s t : State) (rest : List Event), s.rstN = false → s.port = .rst true :: rest → step s = .next t →
    t.irq = false ∧ t.done = false)

/-- CommandWriteRacesCompletion: a `CMD` write and the completion of the busy command, in the two orders: either the write is
ignored with `WBUSY` set and the command completes, or the command completes and the write is accepted (60_exceptions.md
section 3, R214's first race). The new word is an illegal one or has its input written, so that its accept is no model
fault. -/
def Obligations.CommandWriteRacesCompletion : Prop :=
  ∀ (s : State) (rest : List Event) (v : Nat), s.rstN = true → s.busy = true →
    ((decodeWord (BitVec.ofNat 32 v)).isCommand = false ∨ s.inBuf.written s.inLen.toNat = true) →
    (s.port = .busWrite (s.cfg.base + 0x00C) 4 v :: .engine :: rest →
      ∃ t, core.run 2 s = .next t ∧ t.wbusy = true ∧ t.busy = false ∧ t.done = true ∧ t.lastCmd = s.lastCmd) ∧
    (s.port = .engine :: .busWrite (s.cfg.base + 0x00C) 4 v :: rest →
      ∃ t, core.run 2 s = .next t ∧ t.wbusy = s.wbusy ∧ t.busy = true ∧ t.done = false ∧
        t.lastCmd = BitVec.ofNat 32 v)

/-- RecordStaysUntilAcceptOrReset: once a command has ended, every step that neither starts a command nor resets the block
leaves `OUT_LEN`, `ERRCODE`, `ERR_INFO`, `LAST_CMD` and every byte of `OUT` as they were (10_state.md section 2, R29;
20_memory.md section 5, R76). A fall of `RST_N` is among those steps: that it leaves the record in place until the rise is
the model's choice (log 8). -/
def Obligations.RecordStaysUntilAcceptOrReset : Prop :=
  ∀ s t : State, s.busy = false → step s = .next t → t.busy = false →
    (∀ rest, s.port ≠ .rst true :: rest) →
    (∀ rest v, s.port = .busWrite (s.cfg.base + 0x008) 4 v :: rest → v / 2 % 2 = 0) →
    t.outLen = s.outLen ∧ t.errCode = s.errCode ∧ t.errInfo = s.errInfo ∧ t.lastCmd = s.lastCmd ∧
      ∀ i, t.outBuf.read? i = s.outBuf.read? i

/-- WriteBusyFlagIsSticky: `WBUSY` once set goes away only by a write of 1 to bit 3 of `STATUS`, a soft reset or a power-on
reset (10_state.md section 2, R31). That a power-on reset clears it at the rise of `RST_N`, and the fall keeps it, is the
model's choice (log 8). -/
def Obligations.WriteBusyFlagIsSticky : Prop :=
  ∀ s t : State, step s = .next t → s.wbusy = true → t.wbusy = false →
    (∃ rest v, s.port = .busWrite (s.cfg.base + 0x010) 4 v :: rest ∧ v / 8 % 2 = 1) ∨
    (∃ rest v, s.port = .busWrite (s.cfg.base + 0x008) 4 v :: rest ∧ v / 2 % 2 = 1) ∨
    (s.rstN = false ∧ ∃ rest, s.port = .rst true :: rest)

/-- BusyOnlyChangesAsDocumented: `BUSY` rises only by a `CMD` write while idle, and falls only by the engine's completion,
which sets `DONE`, or by a reset (10_state.md section 2, R28; 60_exceptions.md section 1, R200). That a power-on reset lowers
it at the rise of `RST_N`, and the fall keeps it, is the model's choice (log 8); so is that an empty port is the engine's turn
(log 1). -/
def Obligations.BusyOnlyChangesAsDocumented : Prop :=
  ∀ s t : State, step s = .next t →
    (s.busy = false → t.busy = true → ∃ rest v, s.port = .busWrite (s.cfg.base + 0x00C) 4 v :: rest) ∧
    (s.busy = true → t.busy = false →
      ((s.port = [] ∨ ∃ rest, s.port = .engine :: rest) ∧ t.done = true) ∨
      (∃ rest v, s.port = .busWrite (s.cfg.base + 0x008) 4 v :: rest ∧ v / 2 % 2 = 1) ∨
      (s.rstN = false ∧ ∃ rest, s.port = .rst true :: rest))
end

