-- ==== Sys2Proof/Laws/Decode.lean ====
section
/-! SUPPORT. The byte lanes of a word, and the decoder on the lanes of a word. -/

namespace Sys2Proof

/-- The lanes of a word carry the word. -/
theorem wordOfLanes_lanes (w : Word) :
    wordOfLanes (w.extractLsb' 0 8) (w.extractLsb' 8 8) (w.extractLsb' 16 8) (w.extractLsb' 24 8) = w := by
  unfold wordOfLanes
  ext i hi
  simp only [BitVec.getElem_append, BitVec.getElem_extractLsb']
  split
  · simp [BitVec.getLsbD_eq_getElem hi]
  · split
    · rw [show 8 + (i - 8) = i by omega, BitVec.getLsbD_eq_getElem hi]
    · split
      · rw [show 16 + (i - 8 - 8) = i by omega, BitVec.getLsbD_eq_getElem hi]
      · rw [show 24 + (i - 8 - 8 - 8) = i by omega, BitVec.getLsbD_eq_getElem hi]

/-- The decoder on the four lane bytes of a word is `decodeWord`. -/
theorem decodeBytes_lanesOfWord (w : Word) (rest : List Byte) :
    decodeBytes (lanesOfWord w ++ rest) = .command (decodeWord w) rest := by
  simp [lanesOfWord, decodeBytes, wordOfLanes_lanes]

@[simp] theorem decodeBytes_lanesOfWord_nil (w : Word) :
    decodeBytes (lanesOfWord w) = .command (decodeWord w) [] := by
  simpa using decodeBytes_lanesOfWord w []

end Sys2Proof
end

