-- ==== Sys2Proof/Laws/Memory.lean ====
section
/-! SUPPORT. The laws of a buffer: read after write, the canonical form, and buffers made of a list of bytes. -/

namespace Sys2Proof.Machine

@[simp] theorem Memory.read?_nil (i : Nat) : Memory.read? [] i = none := rfl

theorem Memory.read?_cons (k : Nat) (x : Byte) (rest : Memory) (i : Nat) :
    Memory.read? ((k, x) :: rest) i = if k = i then some x else Memory.read? rest i := rfl

/-- A read after a write: the written byte at the written index, everything else as before. -/
theorem Memory.read?_write (m : Memory) (i j : Nat) (x : Byte) :
    (m.write i x).read? j = if i = j then some x else m.read? j := by
  induction m with
  | nil => simp [Memory.write, Memory.read?_cons]
  | cons c rest ih =>
    obtain ⟨k, y⟩ := c
    simp only [Memory.write]
    split
    · simp [Memory.read?_cons]
    · split
      · subst_vars
        simp only [Memory.read?_cons]
        split <;> rfl
      · simp only [Memory.read?_cons, ih]
        split
        · rename_i h
          have : ¬ i = j := by omega
          simp [this]
        · rfl

/-- A read after the write of a run of bytes. -/
theorem Memory.read?_writeBytes (bytes : List Byte) : ∀ (m : Memory) (i j : Nat),
    (m.writeBytes i bytes).read? j =
      if i ≤ j ∧ j < i + bytes.length then bytes[j - i]? else m.read? j := by
  induction bytes with
  | nil =>
    intro m i j
    simp only [Memory.writeBytes, List.length_nil, Nat.add_zero]
    rw [if_neg (by omega)]
  | cons x xs ih =>
    intro m i j
    simp only [Memory.writeBytes, ih, Memory.read?_write, List.length_cons]
    by_cases h1 : i + 1 ≤ j ∧ j < i + 1 + xs.length
    · rw [if_pos h1, if_pos (by omega), show j - i = (j - (i + 1)) + 1 by omega, List.getElem?_cons_succ]
    · rw [if_neg h1]
      by_cases h2 : i = j
      · subst h2
        simp
      · rw [if_neg h2, if_neg (by omega)]

/-- The bytes of a buffer made of a list. -/
theorem Memory.read?_ofBytes (bytes : List Byte) : ∀ (i j : Nat),
    (Memory.ofBytes i bytes).read? j = if i ≤ j then bytes[j - i]? else none := by
  induction bytes with
  | nil => intro i j; simp [Memory.ofBytes]
  | cons x xs ih =>
    intro i j
    simp only [Memory.ofBytes, Memory.read?_cons, ih]
    by_cases h2 : i = j
    · subst h2
      simp
    · rw [if_neg h2]
      by_cases h1 : i ≤ j
      · rw [if_pos (by omega), if_pos h1, show j - i = (j - (i + 1)) + 1 by omega, List.getElem?_cons_succ]
      · rw [if_neg (by omega), if_neg h1]

@[simp] theorem Memory.read?_ofBytes_zero (bytes : List Byte) (j : Nat) :
    (Memory.ofBytes 0 bytes).read? j = bytes[j]? := by
  simp [Memory.read?_ofBytes]

/-! The canonical form. -/

@[simp] theorem Memory.wf_nil : Memory.wf [] = true := rfl

theorem Memory.wf_iff (m : Memory) : m.wf = true ↔ m.Pairwise (fun a b => a.1 < b.1) := by
  induction m with
  | nil => simp
  | cons c rest ih =>
    obtain ⟨i, x⟩ := c
    cases rest with
    | nil => simp [Memory.wf]
    | cons d tail =>
      obtain ⟨k, y⟩ := d
      rw [Memory.wf, Bool.and_eq_true, ih, decide_eq_true_eq, List.pairwise_cons (a := (i, x))]
      constructor
      · rintro ⟨h, hp⟩
        refine ⟨fun c hc => ?_, hp⟩
        rcases List.mem_cons.mp hc with rfl | hc
        · exact h
        · exact Nat.lt_trans h ((List.pairwise_cons.mp hp).1 c hc)
      · rintro ⟨h, hp⟩
        exact ⟨h (k, y) (by simp), hp⟩

theorem Memory.mem_write {m : Memory} {i : Nat} {x : Byte} {c : Host.Cell} (h : c ∈ m.write i x) :
    c = (i, x) ∨ c ∈ m := by
  induction m with
  | nil => simpa [Memory.write] using h
  | cons d rest ih =>
    obtain ⟨k, y⟩ := d
    simp only [Memory.write] at h
    split at h
    · simpa using h
    · split at h
      · rcases List.mem_cons.mp h with h | h <;> simp [h]
      · rcases List.mem_cons.mp h with h | h
        · simp [h]
        · rcases ih h with h | h <;> simp [h]

/-- A write keeps the canonical form. -/
theorem Memory.write_wf {m : Memory} (i : Nat) (x : Byte) (h : m.wf = true) : (m.write i x).wf = true := by
  rw [Memory.wf_iff] at h ⊢
  induction m with
  | nil => simp [Memory.write]
  | cons d rest ih =>
    obtain ⟨k, y⟩ := d
    obtain ⟨hk, hp⟩ := List.pairwise_cons.mp h
    simp only [Memory.write]
    split
    · rename_i hik
      refine List.pairwise_cons.mpr ⟨fun c hc => ?_, h⟩
      rcases List.mem_cons.mp hc with rfl | hc
      · exact hik
      · exact Nat.lt_trans hik (hk c hc)
    · split
      · subst_vars
        exact List.pairwise_cons.mpr ⟨hk, hp⟩
      · refine List.pairwise_cons.mpr ⟨fun c hc => ?_, ih hp⟩
        rcases Memory.mem_write hc with rfl | hc
        · show k < i
          omega
        · exact hk c hc

/-- The write of a run of bytes keeps the canonical form. -/
theorem Memory.writeBytes_wf (bytes : List Byte) : ∀ {m : Memory} (i : Nat), m.wf = true →
    (m.writeBytes i bytes).wf = true := by
  induction bytes with
  | nil => intro m i h; exact h
  | cons x xs ih => intro m i h; exact ih (i + 1) (Memory.write_wf i x h)

theorem Memory.mem_writeBytes (bytes : List Byte) : ∀ {m : Memory} {i : Nat} {c : Host.Cell},
    c ∈ m.writeBytes i bytes → c ∈ m ∨ (i ≤ c.1 ∧ c.1 < i + bytes.length) := by
  induction bytes with
  | nil => intro m i c h; exact .inl h
  | cons x xs ih =>
    intro m i c h
    rcases ih h with h | h
    · rcases Memory.mem_write h with rfl | h
      · right
        simp
      · exact .inl h
    · right
      simp only [List.length_cons]
      omega

theorem Memory.mem_ofBytes (bytes : List Byte) : ∀ {i : Nat} {c : Host.Cell},
    c ∈ Memory.ofBytes i bytes → i ≤ c.1 ∧ c.1 < i + bytes.length := by
  induction bytes with
  | nil => intro i c h; simp [Memory.ofBytes] at h
  | cons x xs ih =>
    intro i c h
    rcases List.mem_cons.mp h with rfl | h
    · simp
    · have := ih h
      simp only [List.length_cons]
      omega

/-- A buffer made of a list is in canonical form. -/
theorem Memory.ofBytes_wf (bytes : List Byte) : ∀ i : Nat, (Memory.ofBytes i bytes).wf = true := by
  induction bytes with
  | nil => intro i; rfl
  | cons x xs ih =>
    intro i
    rw [Memory.wf_iff]
    refine List.pairwise_cons.mpr ⟨fun c hc => ?_, (Memory.wf_iff _).mp (ih (i + 1))⟩
    have := Memory.mem_ofBytes xs hc
    show i < c.1
    omega

/-! Written marks. -/

/-- `written` says that every index below `n` has a byte. -/
theorem Memory.written_iff (m : Memory) (n : Nat) :
    m.written n = true ↔ ∀ i, i < n → (m.read? i).isSome = true := by
  simp [Memory.written]

theorem Memory.readOrDraw_of_read? {m : Memory} {i : Nat} {x : Byte} (h : m.read? i = some x) (draw : Nat) :
    m.readOrDraw i draw = x := by
  simp [Memory.readOrDraw, h]

end Sys2Proof.Machine
end

