-- ==== Sys2Proof/Laws/State.lean ====
section
/-! SUPPORT. One lemma per field per named update of the state, so that no proof unfolds a record update. -/

namespace Sys2Proof.Machine

/-! `State.accepted`. -/

@[simp] theorem State.accepted_cfg (s : State) (v : Word) : (s.accepted v).cfg = s.cfg := rfl
@[simp] theorem State.accepted_rstN (s : State) (v : Word) : (s.accepted v).rstN = s.rstN := rfl
@[simp] theorem State.accepted_ie (s : State) (v : Word) : (s.accepted v).ie = s.ie := rfl
@[simp] theorem State.accepted_lastCmd (s : State) (v : Word) : (s.accepted v).lastCmd = v := rfl
@[simp] theorem State.accepted_busy (s : State) (v : Word) : (s.accepted v).busy = true := rfl
@[simp] theorem State.accepted_done (s : State) (v : Word) : (s.accepted v).done = false := rfl
@[simp] theorem State.accepted_wbusy (s : State) (v : Word) : (s.accepted v).wbusy = s.wbusy := rfl
@[simp] theorem State.accepted_errCode (s : State) (v : Word) : (s.accepted v).errCode = none := rfl
@[simp] theorem State.accepted_inLen (s : State) (v : Word) : (s.accepted v).inLen = s.inLen := rfl
@[simp] theorem State.accepted_outLen (s : State) (v : Word) : (s.accepted v).outLen = 0#32 := rfl
@[simp] theorem State.accepted_errInfo (s : State) (v : Word) : (s.accepted v).errInfo = 0#32 := rfl
@[simp] theorem State.accepted_inBuf (s : State) (v : Word) : (s.accepted v).inBuf = s.inBuf := rfl
@[simp] theorem State.accepted_outBuf (s : State) (v : Word) : (s.accepted v).outBuf = [] := rfl
@[simp] theorem State.accepted_latchedLen (s : State) (v : Word) : (s.accepted v).latchedLen = s.inLen := rfl
@[simp] theorem State.accepted_reply (s : State) (v : Word) : (s.accepted v).reply = s.reply := rfl
@[simp] theorem State.accepted_draws (s : State) (v : Word) : (s.accepted v).draws = s.draws := rfl
@[simp] theorem State.accepted_port (s : State) (v : Word) : (s.accepted v).port = s.port := rfl

/-! `State.softReset`. -/

@[simp] theorem State.softReset_cfg (s : State) : (s.softReset).cfg = s.cfg := rfl
@[simp] theorem State.softReset_rstN (s : State) : (s.softReset).rstN = s.rstN := rfl
@[simp] theorem State.softReset_ie (s : State) : (s.softReset).ie = false := rfl
@[simp] theorem State.softReset_lastCmd (s : State) : (s.softReset).lastCmd = 0#32 := rfl
@[simp] theorem State.softReset_busy (s : State) : (s.softReset).busy = false := rfl
@[simp] theorem State.softReset_done (s : State) : (s.softReset).done = false := rfl
@[simp] theorem State.softReset_wbusy (s : State) : (s.softReset).wbusy = false := rfl
@[simp] theorem State.softReset_errCode (s : State) : (s.softReset).errCode = none := rfl
@[simp] theorem State.softReset_inLen (s : State) : (s.softReset).inLen = 0#32 := rfl
@[simp] theorem State.softReset_outLen (s : State) : (s.softReset).outLen = 0#32 := rfl
@[simp] theorem State.softReset_errInfo (s : State) : (s.softReset).errInfo = 0#32 := rfl
@[simp] theorem State.softReset_inBuf (s : State) : (s.softReset).inBuf = s.inBuf := rfl
@[simp] theorem State.softReset_outBuf (s : State) : (s.softReset).outBuf = [] := rfl
@[simp] theorem State.softReset_latchedLen (s : State) : (s.softReset).latchedLen = 0#32 := rfl
@[simp] theorem State.softReset_reply (s : State) : (s.softReset).reply = s.reply := rfl
@[simp] theorem State.softReset_draws (s : State) : (s.softReset).draws = s.draws := rfl
@[simp] theorem State.softReset_port (s : State) : (s.softReset).port = s.port := rfl

/-! `State.powerOn`. -/

@[simp] theorem State.powerOn_cfg (s : State) : (s.powerOn).cfg = s.cfg := rfl
@[simp] theorem State.powerOn_rstN (s : State) : (s.powerOn).rstN = true := rfl
@[simp] theorem State.powerOn_ie (s : State) : (s.powerOn).ie = false := rfl
@[simp] theorem State.powerOn_lastCmd (s : State) : (s.powerOn).lastCmd = 0#32 := rfl
@[simp] theorem State.powerOn_busy (s : State) : (s.powerOn).busy = false := rfl
@[simp] theorem State.powerOn_done (s : State) : (s.powerOn).done = false := rfl
@[simp] theorem State.powerOn_wbusy (s : State) : (s.powerOn).wbusy = false := rfl
@[simp] theorem State.powerOn_errCode (s : State) : (s.powerOn).errCode = none := rfl
@[simp] theorem State.powerOn_inLen (s : State) : (s.powerOn).inLen = 0#32 := rfl
@[simp] theorem State.powerOn_outLen (s : State) : (s.powerOn).outLen = 0#32 := rfl
@[simp] theorem State.powerOn_errInfo (s : State) : (s.powerOn).errInfo = 0#32 := rfl
@[simp] theorem State.powerOn_inBuf (s : State) : (s.powerOn).inBuf = [] := rfl
@[simp] theorem State.powerOn_outBuf (s : State) : (s.powerOn).outBuf = [] := rfl
@[simp] theorem State.powerOn_latchedLen (s : State) : (s.powerOn).latchedLen = 0#32 := rfl
@[simp] theorem State.powerOn_reply (s : State) : (s.powerOn).reply = none := rfl
@[simp] theorem State.powerOn_draws (s : State) : (s.powerOn).draws = s.draws := rfl
@[simp] theorem State.powerOn_port (s : State) : (s.powerOn).port = s.port := rfl

/-! `State.drew`. -/

@[simp] theorem State.drew_cfg (s : State) (n : Nat) : (s.drew n).cfg = s.cfg := rfl
@[simp] theorem State.drew_rstN (s : State) (n : Nat) : (s.drew n).rstN = s.rstN := rfl
@[simp] theorem State.drew_ie (s : State) (n : Nat) : (s.drew n).ie = s.ie := rfl
@[simp] theorem State.drew_lastCmd (s : State) (n : Nat) : (s.drew n).lastCmd = s.lastCmd := rfl
@[simp] theorem State.drew_busy (s : State) (n : Nat) : (s.drew n).busy = s.busy := rfl
@[simp] theorem State.drew_done (s : State) (n : Nat) : (s.drew n).done = s.done := rfl
@[simp] theorem State.drew_wbusy (s : State) (n : Nat) : (s.drew n).wbusy = s.wbusy := rfl
@[simp] theorem State.drew_errCode (s : State) (n : Nat) : (s.drew n).errCode = s.errCode := rfl
@[simp] theorem State.drew_inLen (s : State) (n : Nat) : (s.drew n).inLen = s.inLen := rfl
@[simp] theorem State.drew_outLen (s : State) (n : Nat) : (s.drew n).outLen = s.outLen := rfl
@[simp] theorem State.drew_errInfo (s : State) (n : Nat) : (s.drew n).errInfo = s.errInfo := rfl
@[simp] theorem State.drew_inBuf (s : State) (n : Nat) : (s.drew n).inBuf = s.inBuf := rfl
@[simp] theorem State.drew_outBuf (s : State) (n : Nat) : (s.drew n).outBuf = s.outBuf := rfl
@[simp] theorem State.drew_latchedLen (s : State) (n : Nat) : (s.drew n).latchedLen = s.latchedLen := rfl
@[simp] theorem State.drew_reply (s : State) (n : Nat) : (s.drew n).reply = s.reply := rfl
@[simp] theorem State.drew_draws (s : State) (n : Nat) : (s.drew n).draws = s.draws + n := rfl
@[simp] theorem State.drew_port (s : State) (n : Nat) : (s.drew n).port = s.port := rfl

/-! `State.ignoredWhileBusy`. -/

@[simp] theorem State.ignoredWhileBusy_cfg (s : State) : (s.ignoredWhileBusy).cfg = s.cfg := rfl
@[simp] theorem State.ignoredWhileBusy_rstN (s : State) : (s.ignoredWhileBusy).rstN = s.rstN := rfl
@[simp] theorem State.ignoredWhileBusy_ie (s : State) : (s.ignoredWhileBusy).ie = s.ie := rfl
@[simp] theorem State.ignoredWhileBusy_lastCmd (s : State) : (s.ignoredWhileBusy).lastCmd = s.lastCmd := rfl
@[simp] theorem State.ignoredWhileBusy_busy (s : State) : (s.ignoredWhileBusy).busy = s.busy := rfl
@[simp] theorem State.ignoredWhileBusy_done (s : State) : (s.ignoredWhileBusy).done = s.done := rfl
@[simp] theorem State.ignoredWhileBusy_wbusy (s : State) : (s.ignoredWhileBusy).wbusy = true := rfl
@[simp] theorem State.ignoredWhileBusy_errCode (s : State) : (s.ignoredWhileBusy).errCode = s.errCode := rfl
@[simp] theorem State.ignoredWhileBusy_inLen (s : State) : (s.ignoredWhileBusy).inLen = s.inLen := rfl
@[simp] theorem State.ignoredWhileBusy_outLen (s : State) : (s.ignoredWhileBusy).outLen = s.outLen := rfl
@[simp] theorem State.ignoredWhileBusy_errInfo (s : State) : (s.ignoredWhileBusy).errInfo = s.errInfo := rfl
@[simp] theorem State.ignoredWhileBusy_inBuf (s : State) : (s.ignoredWhileBusy).inBuf = s.inBuf := rfl
@[simp] theorem State.ignoredWhileBusy_outBuf (s : State) : (s.ignoredWhileBusy).outBuf = s.outBuf := rfl
@[simp] theorem State.ignoredWhileBusy_latchedLen (s : State) : (s.ignoredWhileBusy).latchedLen = s.latchedLen := rfl
@[simp] theorem State.ignoredWhileBusy_reply (s : State) : (s.ignoredWhileBusy).reply = s.reply := rfl
@[simp] theorem State.ignoredWhileBusy_draws (s : State) : (s.ignoredWhileBusy).draws = s.draws := rfl
@[simp] theorem State.ignoredWhileBusy_port (s : State) : (s.ignoredWhileBusy).port = s.port := rfl

/-! `State.answer`. -/

@[simp] theorem State.answer_cfg (s : State) (w v : Nat) : (s.answer w v).cfg = s.cfg := rfl
@[simp] theorem State.answer_rstN (s : State) (w v : Nat) : (s.answer w v).rstN = s.rstN := rfl
@[simp] theorem State.answer_ie (s : State) (w v : Nat) : (s.answer w v).ie = s.ie := rfl
@[simp] theorem State.answer_lastCmd (s : State) (w v : Nat) : (s.answer w v).lastCmd = s.lastCmd := rfl
@[simp] theorem State.answer_busy (s : State) (w v : Nat) : (s.answer w v).busy = s.busy := rfl
@[simp] theorem State.answer_done (s : State) (w v : Nat) : (s.answer w v).done = s.done := rfl
@[simp] theorem State.answer_wbusy (s : State) (w v : Nat) : (s.answer w v).wbusy = s.wbusy := rfl
@[simp] theorem State.answer_errCode (s : State) (w v : Nat) : (s.answer w v).errCode = s.errCode := rfl
@[simp] theorem State.answer_inLen (s : State) (w v : Nat) : (s.answer w v).inLen = s.inLen := rfl
@[simp] theorem State.answer_outLen (s : State) (w v : Nat) : (s.answer w v).outLen = s.outLen := rfl
@[simp] theorem State.answer_errInfo (s : State) (w v : Nat) : (s.answer w v).errInfo = s.errInfo := rfl
@[simp] theorem State.answer_inBuf (s : State) (w v : Nat) : (s.answer w v).inBuf = s.inBuf := rfl
@[simp] theorem State.answer_outBuf (s : State) (w v : Nat) : (s.answer w v).outBuf = s.outBuf := rfl
@[simp] theorem State.answer_latchedLen (s : State) (w v : Nat) : (s.answer w v).latchedLen = s.latchedLen := rfl
@[simp] theorem State.answer_reply (s : State) (w v : Nat) : (s.answer w v).reply = some { width := w, value := v } := rfl
@[simp] theorem State.answer_draws (s : State) (w v : Nat) : (s.answer w v).draws = s.draws := rfl
@[simp] theorem State.answer_port (s : State) (w v : Nat) : (s.answer w v).port = s.port := rfl

/-! `State.writeStatus`. -/

@[simp] theorem State.writeStatus_cfg (s : State) (v : Word) : (s.writeStatus v).cfg = s.cfg := rfl
@[simp] theorem State.writeStatus_rstN (s : State) (v : Word) : (s.writeStatus v).rstN = s.rstN := rfl
@[simp] theorem State.writeStatus_ie (s : State) (v : Word) : (s.writeStatus v).ie = s.ie := rfl
@[simp] theorem State.writeStatus_lastCmd (s : State) (v : Word) : (s.writeStatus v).lastCmd = s.lastCmd := rfl
@[simp] theorem State.writeStatus_busy (s : State) (v : Word) : (s.writeStatus v).busy = s.busy := rfl
@[simp] theorem State.writeStatus_done (s : State) (v : Word) : (s.writeStatus v).done = (s.done && !v.getLsbD 1) := rfl
@[simp] theorem State.writeStatus_wbusy (s : State) (v : Word) : (s.writeStatus v).wbusy = (s.wbusy && !v.getLsbD 3) := rfl
@[simp] theorem State.writeStatus_errCode (s : State) (v : Word) : (s.writeStatus v).errCode = s.errCode := rfl
@[simp] theorem State.writeStatus_inLen (s : State) (v : Word) : (s.writeStatus v).inLen = s.inLen := rfl
@[simp] theorem State.writeStatus_outLen (s : State) (v : Word) : (s.writeStatus v).outLen = s.outLen := rfl
@[simp] theorem State.writeStatus_errInfo (s : State) (v : Word) : (s.writeStatus v).errInfo = s.errInfo := rfl
@[simp] theorem State.writeStatus_inBuf (s : State) (v : Word) : (s.writeStatus v).inBuf = s.inBuf := rfl
@[simp] theorem State.writeStatus_outBuf (s : State) (v : Word) : (s.writeStatus v).outBuf = s.outBuf := rfl
@[simp] theorem State.writeStatus_latchedLen (s : State) (v : Word) : (s.writeStatus v).latchedLen = s.latchedLen := rfl
@[simp] theorem State.writeStatus_reply (s : State) (v : Word) : (s.writeStatus v).reply = s.reply := rfl
@[simp] theorem State.writeStatus_draws (s : State) (v : Word) : (s.writeStatus v).draws = s.draws := rfl
@[simp] theorem State.writeStatus_port (s : State) (v : Word) : (s.writeStatus v).port = s.port := rfl

/-! `State.withCommand`. -/

@[simp] theorem State.withCommand_cfg (s : State) (w : Word) : (s.withCommand w).cfg = s.cfg := rfl
@[simp] theorem State.withCommand_rstN (s : State) (w : Word) : (s.withCommand w).rstN = true := rfl
@[simp] theorem State.withCommand_ie (s : State) (w : Word) : (s.withCommand w).ie = s.ie := rfl
@[simp] theorem State.withCommand_lastCmd (s : State) (w : Word) : (s.withCommand w).lastCmd = w := rfl
@[simp] theorem State.withCommand_busy (s : State) (w : Word) : (s.withCommand w).busy = true := rfl
@[simp] theorem State.withCommand_done (s : State) (w : Word) : (s.withCommand w).done = s.done := rfl
@[simp] theorem State.withCommand_wbusy (s : State) (w : Word) : (s.withCommand w).wbusy = s.wbusy := rfl
@[simp] theorem State.withCommand_errCode (s : State) (w : Word) : (s.withCommand w).errCode = s.errCode := rfl
@[simp] theorem State.withCommand_inLen (s : State) (w : Word) : (s.withCommand w).inLen = s.inLen := rfl
@[simp] theorem State.withCommand_outLen (s : State) (w : Word) : (s.withCommand w).outLen = s.outLen := rfl
@[simp] theorem State.withCommand_errInfo (s : State) (w : Word) : (s.withCommand w).errInfo = s.errInfo := rfl
@[simp] theorem State.withCommand_inBuf (s : State) (w : Word) : (s.withCommand w).inBuf = s.inBuf := rfl
@[simp] theorem State.withCommand_outBuf (s : State) (w : Word) : (s.withCommand w).outBuf = s.outBuf := rfl
@[simp] theorem State.withCommand_latchedLen (s : State) (w : Word) : (s.withCommand w).latchedLen = s.inLen := rfl
@[simp] theorem State.withCommand_reply (s : State) (w : Word) : (s.withCommand w).reply = s.reply := rfl
@[simp] theorem State.withCommand_draws (s : State) (w : Word) : (s.withCommand w).draws = s.draws := rfl
@[simp] theorem State.withCommand_port (s : State) (w : Word) : (s.withCommand w).port = Event.engine :: s.port := rfl

/-! `State.completed`. -/

@[simp] theorem State.completed_cfg (s : State) (r : Result) : (s.completed r).cfg = s.cfg := by
  cases r <;> rfl
@[simp] theorem State.completed_rstN (s : State) (r : Result) : (s.completed r).rstN = s.rstN := by
  cases r <;> rfl
@[simp] theorem State.completed_ie (s : State) (r : Result) : (s.completed r).ie = s.ie := by
  cases r <;> rfl
@[simp] theorem State.completed_lastCmd (s : State) (r : Result) : (s.completed r).lastCmd = s.lastCmd := by
  cases r <;> rfl
@[simp] theorem State.completed_busy (s : State) (r : Result) : (s.completed r).busy = false := by
  cases r <;> rfl
@[simp] theorem State.completed_done (s : State) (r : Result) : (s.completed r).done = true := by
  cases r <;> rfl
@[simp] theorem State.completed_wbusy (s : State) (r : Result) : (s.completed r).wbusy = s.wbusy := by
  cases r <;> rfl
@[simp] theorem State.completed_ok_errCode (s : State) (out : List Byte) :
    (s.completed (.ok out)).errCode = none := rfl
@[simp] theorem State.completed_err_errCode (s : State) (kind : ErrKind) (info : Word) :
    (s.completed (.err kind info)).errCode = some kind := rfl
@[simp] theorem State.completed_inLen (s : State) (r : Result) : (s.completed r).inLen = s.inLen := by
  cases r <;> rfl
@[simp] theorem State.completed_ok_outLen (s : State) (out : List Byte) :
    (s.completed (.ok out)).outLen = BitVec.ofNat 32 out.length := rfl
@[simp] theorem State.completed_err_outLen (s : State) (kind : ErrKind) (info : Word) :
    (s.completed (.err kind info)).outLen = 0#32 := rfl
@[simp] theorem State.completed_ok_errInfo (s : State) (out : List Byte) :
    (s.completed (.ok out)).errInfo = 0#32 := rfl
@[simp] theorem State.completed_err_errInfo (s : State) (kind : ErrKind) (info : Word) :
    (s.completed (.err kind info)).errInfo = info := rfl
@[simp] theorem State.completed_inBuf (s : State) (r : Result) : (s.completed r).inBuf = s.inBuf := by
  cases r <;> rfl
@[simp] theorem State.completed_ok_outBuf (s : State) (out : List Byte) :
    (s.completed (.ok out)).outBuf = Memory.ofBytes 0 out := rfl
@[simp] theorem State.completed_err_outBuf (s : State) (kind : ErrKind) (info : Word) :
    (s.completed (.err kind info)).outBuf = [] := rfl
@[simp] theorem State.completed_latchedLen (s : State) (r : Result) : (s.completed r).latchedLen = s.latchedLen := by
  cases r <;> rfl
@[simp] theorem State.completed_reply (s : State) (r : Result) : (s.completed r).reply = s.reply := by
  cases r <;> rfl
@[simp] theorem State.completed_draws (s : State) (r : Result) : (s.completed r).draws = s.draws := by
  cases r <;> rfl
@[simp] theorem State.completed_port (s : State) (r : Result) : (s.completed r).port = s.port := by
  cases r <;> rfl

end Sys2Proof.Machine
end

