-- ==== Sys2Proof/Laws/Ops.lean ====
section
/-! SUPPORT. One lemma per shared operation that says everything it can do. -/

namespace Sys2Proof.Machine

/-! Completion. -/

@[simp] theorem State.drew_zero (s : State) : s.drew 0 = s := rfl

/-- Where the input fits the buffer, a command's own function runs on `IN[0:n]`. -/
theorem runCommand_fits {f : List Byte → Result} {s : State} (h : s.latchedLen.toNat ≤ s.cfg.inCap) :
    runCommand f s = .next ((s.drew s.latchedLen.toNat).completed (f s.inputBytes)) := by
  simp [runCommand, h]

/-- Where it does not fit, the command completes with `IN_LENGTH`. -/
theorem runCommand_overlong {f : List Byte → Result} {s : State} (h : s.cfg.inCap < s.latchedLen.toNat) :
    runCommand f s = .next (s.completed (.err .inLength 0#32)) := by
  simp [runCommand, Nat.not_le.mpr h]

/-- Everything a complete step can do: for every instruction it is the completion record of some result. -/
theorem exec_completes (i : Instr) (s : State) : ∃ n r, exec i s = .next ((s.drew n).completed r) := by
  have hrun : ∀ f, ∃ n r, runCommand f s = .next ((s.drew n).completed r) := by
    intro f
    unfold runCommand
    split
    · exact ⟨_, _, rfl⟩
    · exact ⟨0, _, rfl⟩
  cases i <;> first | exact hrun _ | exact ⟨0, _, rfl⟩

/-- The engine's turn. -/
theorem engineTurn_eq (s : State) :
    engineTurn s = if s.rstN = true ∧ s.busy = true then exec (decodeWord s.lastCmd) s else .next s := by
  simp [engineTurn, State.fetch]

/-! Accept. -/

/-- Everything an accept can do. -/
theorem accept_eq (v : Word) (s : State) :
    accept v s = if s.acceptFaults v = true then .fault .unwrittenInput else .next (s.accepted v) := rfl

/-- When an accept is the model fault. -/
theorem State.acceptFaults_iff (s : State) (v : Word) :
    s.acceptFaults v = true ↔ (decodeWord v).isCommand = true ∧ s.inLen.toNat ≤ s.cfg.inCap ∧
      ∃ i, i < s.inLen.toNat ∧ s.inBuf.read? i = none := by
  simp [State.acceptFaults, Memory.written, and_assoc]

/-! The region's map. -/

/-- An offset below `0x4000` is found again at `BASE` plus it. -/
theorem regionOffset_base {c : Config} {o : Nat} (h : o < 0x4000) : regionOffset c (c.base + o) = some o := by
  simp [regionOffset, regionSize, h]

theorem regionOffset_some {c : Config} {addr o : Nat} (h : regionOffset c addr = some o) :
    addr = c.base + o ∧ o < 0x4000 := by
  unfold regionOffset regionSize at h
  split at h
  · injection h with h
    omega
  · simp at h

/-- A register's offset reaches the register with a 32-bit access. -/
@[simp] theorem target_reg (c : Config) (r : Reg) : target c r.offset 4 = some (.reg r) := by
  cases r <;> rfl

theorem Reg.at?_some {o : Nat} {r : Reg} (h : Reg.at? o = some r) : o = r.offset := by
  unfold Reg.at? at h
  split at h <;> first | (injection h with h; subst h; rfl) | simp at h

theorem inCap_bounds (c : Config) : 4 ≤ c.inCap ∧ c.inCap ≤ 4096 := by
  unfold Config.inCap
  omega

theorem outCap_bounds (c : Config) : c.inCap + 4 ≤ c.outCap ∧ c.outCap ≤ 5660 := by
  have := inCap_bounds c
  unfold Config.outCap roundup4 encodingBound
  omega

/-- Everything an access can reach: a register, or bytes that lie wholly inside one buffer. -/
theorem target_cases {c : Config} {o w : Nat} {t : Target} (h : target c o w = some t) :
    (∃ r, t = .reg r ∧ w = 4 ∧ o = r.offset) ∨
    (∃ i, t = .input i ∧ o = 0x1000 + i ∧ i + w ≤ c.inCap ∧ (w = 1 ∨ w = 2 ∨ w = 4) ∧ o % w = 0) ∨
    (∃ i, t = .output i ∧ o = 0x2000 + i ∧ i + w ≤ c.outCap ∧ (w = 1 ∨ w = 2 ∨ w = 4) ∧ o % w = 0) := by
  unfold target at h
  split at h
  · rename_i hw
    cases hr : Reg.at? o with
    | none => simp [hr] at h
    | some r =>
      simp only [hr, Option.map_some, Option.some.injEq] at h
      exact .inl ⟨r, h.symm, hw.1, Reg.at?_some hr⟩
  · split at h
    · rename_i hb
      have hb' : (w = 1 ∨ w = 2 ∨ w = 4) ∧ o % w = 0 := by simpa [bufferAccess, or_assoc] using hb
      unfold inWindow outWindow at h
      split at h
      · injection h with h
        refine .inr (.inl ⟨o - 0x1000, h.symm, by omega, by omega, hb'.1, hb'.2⟩)
      · split at h
        · injection h with h
          refine .inr (.inr ⟨o - 0x2000, h.symm, by omega, by omega, hb'.1, hb'.2⟩)
        · simp at h
    · simp at h

/-- An aligned access wholly inside the input buffer reaches it. -/
theorem target_input {c : Config} {o w : Nat} (hw : w = 1 ∨ w = 2 ∨ w = 4) (ha : o % w = 0)
    (h1 : 0x1000 ≤ o) (h2 : o + w ≤ 0x1000 + c.inCap) : target c o w = some (.input (o - 0x1000)) := by
  have hb : bufferAccess o w = true := by simp [bufferAccess, ha, hw, or_assoc]
  unfold target inWindow outWindow
  rw [if_neg (by omega), if_pos hb, if_pos ⟨h1, h2⟩]

/-- An aligned access wholly inside the output buffer reaches it. -/
theorem target_output {c : Config} {o w : Nat} (hw : w = 1 ∨ w = 2 ∨ w = 4) (ha : o % w = 0)
    (h1 : 0x2000 ≤ o) (h2 : o + w ≤ 0x2000 + c.outCap) : target c o w = some (.output (o - 0x2000)) := by
  have hb : bufferAccess o w = true := by simp [bufferAccess, ha, hw, or_assoc]
  have := inCap_bounds c
  unfold target inWindow outWindow
  rw [if_neg (by omega), if_pos hb, if_neg (by omega), if_pos ⟨h1, h2⟩]

/-! Bus accesses. -/

/-- Everything a read that answers can do: the model's reply and draw counter change, nothing of the block. -/
theorem busRead_next {addr w : Nat} {s t : State} (h : busRead addr w s = .next t) :
    ∃ n v, t = (s.drew n).answer w v := by
  unfold busRead at h
  split at h
  · split at h
    · simp at h
    · split at h
      · simp at h
      · injection h with h
        exact ⟨0, _, h.symm⟩
      · injection h with h
        exact ⟨_, _, h.symm⟩
      · injection h with h
        exact ⟨_, _, h.symm⟩
  · simp at h

/-- Everything a register write that answers can do. -/
theorem writeReg_next {r : Reg} {v : Word} {s t : State} (h : writeReg r v s = .next t) :
    (r = .ctrl ∧ t = s.writeCtrl v) ∨
    (r = .cmd ∧ s.busy = true ∧ t = s.ignoredWhileBusy) ∨
    (r = .cmd ∧ s.busy = false ∧ s.acceptFaults v = false ∧ t = s.accepted v) ∨
    (r = .status ∧ t = s.writeStatus v) ∨
    (r = .inLen ∧ t = s.writeInLen v) ∨
    ((r = .id ∨ r = .caps ∨ r = .outLen ∨ r = .errInfo) ∧ t = s) := by
  cases r <;> simp only [writeReg, accept, Host.Outcome.next.injEq] at h
  case cmd =>
    split at h
    · injection h with h
      simp_all
    · split at h
      · simp at h
      · injection h with h
        simp_all
  all_goals simp [h]

/-- Everything a write that answers can do: a register write, or a write of the input window. -/
theorem busWrite_next {addr w data : Nat} {s t : State} (h : busWrite addr w data s = .next t) :
    s.rstN = true ∧ ∃ o, addr = s.cfg.base + o ∧
      ((∃ r, w = 4 ∧ o = r.offset ∧ writeReg r (BitVec.ofNat 32 data) { s with reply := none } = .next t) ∨
       (∃ i, o = 0x1000 + i ∧ i + w ≤ s.cfg.inCap ∧
          t = { s with reply := none }.writeInput i (laneBytes w data))) := by
  unfold busWrite at h
  split at h
  · rename_i hr
    refine ⟨hr, ?_⟩
    split at h
    · simp at h
    · rename_i o ho
      refine ⟨o, (regionOffset_some ho).1, ?_⟩
      split at h
      · simp at h
      · rename_i r ht
        rcases target_cases ht with ⟨r', e, hw, hoff⟩ | ⟨i, e, _⟩ | ⟨i, e, _⟩
        · injection e with e
          subst e
          exact .inl ⟨r, hw, hoff, h⟩
        · simp at e
        · simp at e
      · rename_i i ht
        rcases target_cases ht with ⟨r', e, _⟩ | ⟨i', e, hi, hc, _⟩ | ⟨i', e, _⟩
        · simp at e
        · injection e with e
          subst e
          injection h with h
          exact .inr ⟨i, hi, hc, h.symm⟩
        · simp at e
      · simp at h
  · simp at h

/-- A 32-bit read at a register's offset answers its word. -/
theorem busRead_reg {s : State} (r : Reg) (h : s.rstN = true) :
    busRead (s.cfg.base + r.offset) 4 s = .next (s.answer 4 (s.readReg r).toNat) := by
  have ho : r.offset < 0x4000 := by cases r <;> decide
  simp [busRead, h, regionOffset_base ho]

/-- A 32-bit write at a register's offset is the register's write. -/
theorem busWrite_reg {s : State} (r : Reg) (data : Nat) (h : s.rstN = true) :
    busWrite (s.cfg.base + r.offset) 4 data s = writeReg r (BitVec.ofNat 32 data) { s with reply := none } := by
  have ho : r.offset < 0x4000 := by cases r <;> decide
  simp [busWrite, h, regionOffset_base ho]

/-- An admitted write of the input window. -/
theorem busWrite_input {s : State} {o w : Nat} (data : Nat) (h : s.rstN = true) (hw : w = 1 ∨ w = 2 ∨ w = 4)
    (ha : o % w = 0) (h1 : 0x1000 ≤ o) (h2 : o + w ≤ 0x1000 + s.cfg.inCap) :
    busWrite (s.cfg.base + o) w data s =
      .next ({ s with reply := none }.writeInput (o - 0x1000) (laneBytes w data)) := by
  have := inCap_bounds s.cfg
  have ho : o < 0x4000 := by omega
  simp [busWrite, h, regionOffset_base ho, target_input hw ha h1 h2]

/-! The step. -/

theorem step_cons {s : State} {e : Event} {rest : List Event} (h : s.port = e :: rest) :
    step s = takeEvent e { s with port := rest } := by
  simp [step, h]

theorem step_nil {s : State} (h : s.port = []) : step s = engineTurn s := by
  simp [step, h]

/-- The number of lane bytes is the width of the write. -/
@[simp] theorem laneBytes_length (w data : Nat) : (laneBytes w data).length = w := by
  simp [laneBytes]

/-- The value of `w` lane bytes is below `256^w`. -/
theorem lanesValue_lt (bytes : List Byte) : lanesValue bytes < 256 ^ bytes.length := by
  induction bytes with
  | nil => simp [lanesValue]
  | cons x xs ih =>
    have := x.isLt
    simp only [lanesValue, List.length_cons, Nat.pow_succ]
    omega

/-- Lane `j` of a value is its byte `j`. -/
theorem lanesValue_lane (bytes : List Byte) : ∀ (j : Nat) (x : Byte), bytes[j]? = some x →
    lanesValue bytes / 256 ^ j % 256 = x.toNat := by
  induction bytes with
  | nil => intro j x h; simp at h
  | cons y ys ih =>
    intro j x h
    have hy := y.isLt
    cases j with
    | zero =>
      simp only [List.getElem?_cons_zero, Option.some.injEq] at h
      subst h
      simp only [lanesValue, Nat.pow_zero, Nat.div_one]
      omega
    | succ j =>
      rw [List.getElem?_cons_succ] at h
      rw [Nat.pow_succ, Nat.mul_comm, ← Nat.div_div_eq_div_mul]
      have : lanesValue (y :: ys) / 256 = lanesValue ys := by
        simp only [lanesValue]
        omega
      rw [this]
      exact ih j x h

end Sys2Proof.Machine
end

