-- ==== Sys2Proof/Laws/PerInstr.lean ====
section
/-! SUPPORT. The family of statements that hold of every instruction as syntax, one lemma per constructor. -/

namespace Sys2Proof.Laws.OpcodeField

/-- The word of a well-formed instruction has a zero reserved field and an opcode from 1 to 0xB exactly when the
instruction is a command (spec 30_encoding.md R94, R96). -/
def Statement (i : Instr) : Prop :=
  i.wellFormed = true →
    (i.isCommand = true ↔ (rsvField (encode i) = 0 ∧ 0x1 ≤ (opField (encode i)).toNat ∧ (opField (encode i)).toNat ≤ 0xB))

/-- The words from 1 to 0xB are the command words. -/
theorem isCommandWord_of_fields {w : Word} (hr : rsvField w = 0) (h1 : 0x1 ≤ (opField w).toNat)
    (h2 : (opField w).toNat ≤ 0xB) : isCommandWord w = true := by
  have hr' := congrArg BitVec.toNat hr
  simp [rsvField, opField, BitVec.extractLsb'_toNat] at hr' h1 h2
  have hlt := w.isLt
  have hw : w = BitVec.ofNat 32 w.toNat := by simp
  have hb : 1 ≤ w.toNat ∧ w.toNat ≤ 11 := by omega
  clear hr hr' h1 h2 hlt
  generalize w.toNat = n at *
  subst hw
  obtain ⟨ha, hb⟩ := hb
  interval_cases n <;> decide

theorem enc : Statement .enc := by unfold Statement; decide
theorem dec : Statement .dec := by unfold Statement; decide
theorem cenc : Statement .cenc := by unfold Statement; decide
theorem cdec : Statement .cdec := by unfold Statement; decide
theorem todig : Statement .todig := by unfold Statement; decide
theorem fromdig : Statement .fromdig := by unfold Statement; decide
theorem map : Statement .map := by unfold Statement; decide
theorem unmap : Statement .unmap := by unfold Statement; decide
theorem csum : Statement .csum := by unfold Statement; decide
theorem frame : Statement .frame := by unfold Statement; decide
theorem unframe : Statement .unframe := by unfold Statement; decide

theorem illegal (word : Word) : Statement (.illegal word) := by
  intro h
  refine ⟨fun hc => by simp [Instr.isCommand] at hc, fun ⟨hr, h1, h2⟩ => ?_⟩
  have := isCommandWord_of_fields hr h1 h2
  simp [Instr.wellFormed, encode] at h this
  simp [h] at this

end Sys2Proof.Laws.OpcodeField
end

