-- ==== Sys2Proof/Laws/Radix.lean ====
section
/-! SUPPORT. The radix conversions against Mathlib's digits of a number. -/

namespace Sys2Proof.Machine

/-- With fuel enough the remainder loop gives the digits, least significant first. -/
theorem remainders_eq_digits {b : Nat} (hb : 2 ≤ b) : ∀ (fuel v : Nat), v < b ^ fuel →
    remainders b fuel v = Nat.digits b v := by
  intro fuel
  induction fuel with
  | zero =>
    intro v h
    have : v = 0 := by simpa using h
    simp [remainders, this]
  | succ fuel ih =>
    intro v h
    unfold remainders
    split
    · simp [*]
    · rename_i hv
      rw [Nat.digits_def' (by omega) (by omega), ih]
      rw [Nat.div_lt_iff_lt_mul (by omega), ← Nat.pow_succ]
      exact h

/-- The digits of a number, most significant first. -/
theorem radixDigits_eq {b : Nat} (hb : 2 ≤ b) (v : Nat) :
    radixDigits b v = (Nat.digits b v).reverse.map (BitVec.ofNat 8) := by
  have : v < b ^ (Nat.log2 v + 1) :=
    Nat.lt_of_lt_of_le Nat.lt_log2_self (Nat.pow_le_pow_left hb _)
  rw [radixDigits, remainders_eq_digits hb _ _ this]

@[simp] theorem valRadix_nil (b : Nat) : valRadix b [] = 0 := rfl

@[simp] theorem valRadix_concat (b : Nat) (ds : List Byte) (x : Byte) :
    valRadix b (ds ++ [x]) = valRadix b ds * b + x.toNat := by
  simp [valRadix]

/-- The value of a sequence as Mathlib's value of its reversed digits. -/
theorem valRadix_eq_ofDigits (b : Nat) (ds : List Byte) :
    valRadix b ds = Nat.ofDigits b (ds.reverse.map BitVec.toNat) := by
  induction ds using List.reverseRecOn with
  | nil => rfl
  | append_singleton ds x ih =>
    simp only [valRadix_concat, ih, List.reverse_append, List.reverse_cons, List.reverse_nil, List.nil_append,
      List.singleton_append, List.map_cons, Nat.ofDigits_cons]
    ring

theorem valRadix_append (b : Nat) (xs ys : List Byte) :
    valRadix b (xs ++ ys) = valRadix b xs * b ^ ys.length + valRadix b ys := by
  induction ys using List.reverseRecOn with
  | nil => simp
  | append_singleton ys y ih =>
    rw [← List.append_assoc, valRadix_concat, ih, valRadix_concat, List.length_append, List.length_singleton]
    ring

theorem valRadix_cons (b : Nat) (x : Byte) (ys : List Byte) :
    valRadix b (x :: ys) = x.toNat * b ^ ys.length + valRadix b ys := by
  have := valRadix_append b [x] ys
  simpa [valRadix] using this

/-- Leading zeros have no value. -/
@[simp] theorem valRadix_replicate_zero (b k : Nat) : valRadix b (List.replicate k 0x00#8) = 0 := by
  induction k with
  | zero => rfl
  | succ k ih => simp [List.replicate_succ, valRadix_cons, ih]

/-- The value of a sequence of digits below `b` is below `b` to its length. -/
theorem valRadix_lt {b : Nat} {ds : List Byte} (h : ∀ x ∈ ds, x.toNat < b) :
    valRadix b ds < b ^ ds.length := by
  induction ds using List.reverseRecOn with
  | nil => simp
  | append_singleton ds x ih =>
    have h1 := ih (fun y hy => h y (by simp [hy]))
    have h2 := h x (by simp)
    rw [valRadix_concat, List.length_append, List.length_singleton, Nat.pow_succ]
    calc valRadix b ds * b + x.toNat < valRadix b ds * b + b := by omega
      _ = (valRadix b ds + 1) * b := by ring
      _ ≤ b ^ ds.length * b := Nat.mul_le_mul_right b h1

theorem valBE_lt (s : List Byte) : valBE s < 256 ^ s.length := valRadix_lt fun x _ => x.isLt

/-- The computed digits are the notation of the number. -/
theorem radixDigits_isNotation {b : Nat} (hb : 2 ≤ b) (hb' : b ≤ 256) (v : Nat) :
    IsNotation b v (radixDigits b v) := by
  rw [radixDigits_eq hb]
  have hlt : ∀ d ∈ Nat.digits b v, d < b := fun d hd => Nat.digits_lt_base (by omega) hd
  have hmap : ((Nat.digits b v).map (BitVec.ofNat 8)).map BitVec.toNat = Nat.digits b v := by
    rw [List.map_map]
    refine (List.map_congr_left (g := id) fun d hd => ?_).trans (List.map_id _)
    have := hlt d hd
    simpa using Nat.mod_eq_of_lt (by omega : d < 256)
  refine ⟨?_, ?_, ?_⟩
  · intro x hx
    obtain ⟨d, hd, rfl⟩ := List.mem_map.mp hx
    have := hlt d (by simpa using hd)
    rw [BitVec.toNat_ofNat]
    omega
  · rw [List.head?_map, List.head?_reverse]
    intro h
    obtain ⟨d, hd, hz⟩ := Option.map_eq_some_iff.mp h
    have hmem := List.mem_of_mem_getLast? hd
    have hv : v ≠ 0 := by
      rintro rfl
      simp at hmem
    have hlast := Nat.getLast_digit_ne_zero b hv
    rw [List.getLast?_eq_getLast_of_ne_nil (Nat.digits_ne_nil_iff_ne_zero.mpr hv)] at hd
    injection hd with hd
    have h1 := hlt d hmem
    have h2 : d % 256 = 0 := by simpa [BitVec.toNat_eq] using congrArg BitVec.toNat hz
    rw [hd] at hlast
    omega
  · rw [valRadix_eq_ofDigits, ← List.map_reverse, List.reverse_reverse, hmap, Nat.ofDigits_digits]

end Sys2Proof.Machine
end

