-- ==== Sys2Proof/Laws/Sequences.lean ====
section
/-! SUPPORT. Leading runs, the first bad byte, and what the complete step of a command leaves. -/

namespace Sys2Proof.Machine

/-! The lowest-indexed byte that fails a test. -/

theorem firstBad_none {good : Byte → Bool} {s : List Byte} (h : ∀ x ∈ s, good x = true) :
    ∀ i, firstBad good i s = none := by
  induction s with
  | nil => intro i; rfl
  | cons x xs ih =>
    intro i
    rw [firstBad, if_pos (h x (by simp))]
    exact ih (fun y hy => h y (by simp [hy])) _

theorem firstBad_some {good : Byte → Bool} {pre post : List Byte} {x : Byte} (h : ∀ y ∈ pre, good y = true)
    (hx : good x = false) : ∀ i, firstBad good i (pre ++ x :: post) = some (i + pre.length, x) := by
  induction pre with
  | nil => intro i; simp [firstBad, hx]
  | cons y ys ih =>
    intro i
    rw [List.cons_append, firstBad, if_pos (h y (by simp)), ih (fun z hz => h z (by simp [hz]))]
    simp only [List.length_cons, Option.some.injEq, Prod.mk.injEq, and_true]
    omega

/-! The checks the commands share. -/

theorem checkDigits_ok {s : List Byte} (h : ∀ x ∈ s, x.toNat ≤ 57) (r : Result) : checkDigits s r = r := by
  rw [checkDigits, firstBad_none (fun x hx => by simpa [isDigit] using h x hx)]

theorem checkDigits_bad {pre post : List Byte} {x : Byte} (h : ∀ y ∈ pre, y.toNat ≤ 57) (hx : 57 < x.toNat)
    (r : Result) : checkDigits (pre ++ x :: post) r = .err .digitRange (errInfoWord pre.length x) := by
  rw [checkDigits, firstBad_some (fun y hy => by simpa [isDigit] using h y hy) (by simpa [isDigit] using hx)]
  simp

theorem validated_ok {s : List Byte} (h : ∀ c ∈ s, validSymbol c = true) (r : Result) : validated s r = r := by
  simp [validated, firstBad_none h]

theorem validated_bad {pre post : List Byte} {x : Byte} (h : ∀ y ∈ pre, validSymbol y = true)
    (hx : validSymbol x = false) (r : Result) :
    validated (pre ++ x :: post) r = .err .invalidCharacter (errInfoWord pre.length x) := by
  rw [validated, firstBad_some h hx]
  simp

/-- A string is valid, or it has a first invalid byte. -/
theorem valid_or_first_bad (s : List Byte) : (∀ c ∈ s, validSymbol c = true) ∨
    ∃ pre c post, s = pre ++ c :: post ∧ (∀ y ∈ pre, validSymbol y = true) ∧ validSymbol c = false := by
  induction s with
  | nil => exact .inl (by simp)
  | cons x xs ih =>
    by_cases hx : validSymbol x = true
    · rcases ih with h | ⟨pre, c, post, rfl, h1, h2⟩
      · exact .inl (by simpa [hx] using h)
      · exact .inr ⟨x :: pre, c, post, rfl, by simpa [hx] using h1, h2⟩
    · exact .inr ⟨[], x, xs, rfl, by simp, by simpa using hx⟩

/-- The fields of `ERR_INFO` do not overlap. -/
theorem errInfoWord_toNat {i : Nat} {x : Byte} (h : i < 65536) : (errInfoWord i x).toNat = x.toNat * 65536 + i := by
  have := x.isLt
  simp only [errInfoWord, BitVec.toNat_ofNat]
  omega

/-! Leading runs. -/

/-- A sequence is its leading run and a rest that does not start with the byte. -/
theorem leadingRun_split (x : Byte) (s : List Byte) :
    s = List.replicate (leadingRun x s) x ++ s.drop (leadingRun x s) ∧
      (s.drop (leadingRun x s)).head? ≠ some x := by
  induction s with
  | nil => simp [leadingRun]
  | cons y ys ih =>
    by_cases h : y = x
    · subst h
      have : leadingRun y (y :: ys) = leadingRun y ys + 1 := by simp [leadingRun]
      rw [this, List.replicate_succ, List.drop_succ_cons]
      exact ⟨by rw [List.cons_append, ← ih.1], ih.2⟩
    · have : leadingRun x (y :: ys) = 0 := by simp [leadingRun, h]
      rw [this]
      simp [h]

/-- The leading run of `k` copies before a rest that does not start with the byte. -/
theorem leadingRun_replicate (x : Byte) (k : Nat) {s : List Byte} (h : s.head? ≠ some x) :
    leadingRun x (List.replicate k x ++ s) = k := by
  induction k with
  | zero =>
    cases s with
    | nil => rfl
    | cons y ys =>
      have : y ≠ x := by simpa using h
      simp [leadingRun, this]
  | succ k ih => simpa [leadingRun, List.replicate_succ] using ih

/-- Leading zeros before a sequence have no value. -/
theorem valRadix_zeros_append (b k : Nat) (s : List Byte) :
    valRadix b (List.replicate k 0x00#8 ++ s) = valRadix b s := by
  rw [valRadix_append]
  simp

/-! The complete step of a command. -/

/-- The function of a command (spec 60_exceptions.md R206). -/
def resultOf (i : Instr) (inb : List Byte) : Result :=
  match i with
  | .enc => encResult inb
  | .dec => decResult inb
  | .cenc => cencResult inb
  | .cdec => cdecResult inb
  | .todig => todigResult inb
  | .fromdig => fromdigResult inb
  | .map => mapResult inb
  | .unmap => unmapResult inb
  | .csum => csumResult inb
  | .frame => frameResult inb
  | .unframe => unframeResult inb
  | .illegal _ => .err .illegalCommand 0#32

/-- A legal command runs its function under the common check. -/
theorem exec_command {i : Instr} (h : i.isCommand = true) (s : State) : exec i s = runCommand (resultOf i) s := by
  cases i <;> first | rfl | simp [Instr.isCommand] at h

@[simp] theorem State.inputBytes_length (s : State) : s.inputBytes.length = s.latchedLen.toNat := by
  simp [State.inputBytes]

/-- The success record. -/
theorem State.completedOk {s : State} {n : Nat} {out : List Byte} (h : out.length < 2 ^ 32) :
    s.CompletedOk ((s.drew n).completed (.ok out)) out := by
  constructor
  · constructor <;> simp
  all_goals try simp
  omega

/-- The error record. -/
theorem State.completedErr {s : State} {n : Nat} {kind : ErrKind} {info : Word} :
    s.CompletedErr ((s.drew n).completed (.err kind info)) kind info.toNat := by
  constructor
  · constructor <;> simp
  all_goals simp

/-- A command whose function succeeds on its input. -/
theorem exec_ok {i : Instr} {s : State} {out : List Byte} (hi : i.isCommand = true) (h : s.InputFits)
    (hr : resultOf i s.inputBytes = .ok out) (hl : out.length < 2 ^ 32) :
    ∃ t, exec i s = .next t ∧ s.CompletedOk t out := by
  rw [exec_command hi, runCommand_fits h, hr]
  exact ⟨_, rfl, State.completedOk hl⟩

/-- A command whose function fails on its input. -/
theorem exec_err {i : Instr} {s : State} {kind : ErrKind} {info : Word} (hi : i.isCommand = true) (h : s.InputFits)
    (hr : resultOf i s.inputBytes = .err kind info) :
    ∃ t, exec i s = .next t ∧ s.CompletedErr t kind info.toNat := by
  rw [exec_command hi, runCommand_fits h, hr]
  exact ⟨_, rfl, State.completedErr⟩

end Sys2Proof.Machine
end

