-- ==== Sys2Proof/Laws/Step.lean ====
section
/-! SUPPORT. Everything a step can do, said once, and the bits of a word a host writes. -/

namespace Sys2Proof.Machine

/-! Bits of the data of a 32-bit write. -/

/-- Bit `k` of a written value. -/
theorem ofNat_bit (v k : Nat) (hk : k < 32) : (BitVec.ofNat 32 v).getLsbD k = decide (v / 2 ^ k % 2 = 1) := by
  rw [BitVec.getLsbD_ofNat, Nat.testBit_eq_decide_div_mod_eq]
  simp [hk]

theorem ofNat_bit0 (v : Nat) : (BitVec.ofNat 32 v).getLsbD 0 = decide (v % 2 = 1) := by
  simpa using ofNat_bit v 0

theorem ofNat_bit1 (v : Nat) : (BitVec.ofNat 32 v).getLsbD 1 = decide (v / 2 % 2 = 1) := ofNat_bit v 1 (by omega)

theorem ofNat_bit3 (v : Nat) : (BitVec.ofNat 32 v).getLsbD 3 = decide (v / 8 % 2 = 1) := ofNat_bit v 3 (by omega)

theorem not_decide_bit (v k : Nat) : (!decide (v / k % 2 = 1)) = decide (v / k % 2 = 0) := by
  rcases Nat.mod_two_eq_zero_or_one (v / k) with h | h <;> simp [h]

/-! Steps that start with a register access. -/

/-- The step of a 32-bit write at a register's offset. -/
theorem step_writeReg (r : Reg) {s : State} {rest : List Event} {v : Nat} (h : s.rstN = true)
    (hp : s.port = .busWrite (s.cfg.base + r.offset) 4 v :: rest) :
    step s = writeReg r (BitVec.ofNat 32 v) { s with reply := none, port := rest } := by
  rw [step_cons hp]
  exact busWrite_reg (s := { s with port := rest }) r v h

/-- The step of a 32-bit read at a register's offset. -/
theorem step_readReg (r : Reg) {s : State} {rest : List Event} (h : s.rstN = true)
    (hp : s.port = .busRead (s.cfg.base + r.offset) 4 :: rest) :
    step s = .next { s with reply := some { width := 4, value := (s.readReg r).toNat }, port := rest } := by
  rw [step_cons hp]
  refine (busRead_reg (s := { s with port := rest }) r h).trans ?_
  cases r <;> rfl

/-! Everything an entry of the port, and so a step, can do when it answers a next state. -/

/-- The cases of an entry of the port. -/
theorem takeEvent_next {e : Event} {s t : State} (h : takeEvent e s = .next t) :
    (∃ a w n v, e = .busRead a w ∧ t = (s.drew n).answer w v) ∨
    (∃ v, e = .busWrite (s.cfg.base + 0x008) 4 v ∧ t = { s with reply := none }.writeCtrl (BitVec.ofNat 32 v)) ∨
    (∃ v, e = .busWrite (s.cfg.base + 0x00C) 4 v ∧ s.busy = true ∧ t = { s with reply := none }.ignoredWhileBusy) ∨
    (∃ v, e = .busWrite (s.cfg.base + 0x00C) 4 v ∧ s.busy = false ∧ s.acceptFaults (BitVec.ofNat 32 v) = false ∧
      t = { s with reply := none }.accepted (BitVec.ofNat 32 v)) ∨
    (∃ v, e = .busWrite (s.cfg.base + 0x010) 4 v ∧ t = { s with reply := none }.writeStatus (BitVec.ofNat 32 v)) ∨
    (∃ v, e = .busWrite (s.cfg.base + 0x014) 4 v ∧ t = { s with reply := none }.writeInLen (BitVec.ofNat 32 v)) ∨
    (∃ a w v, e = .busWrite a w v ∧ t = { s with reply := none }) ∨
    (∃ a w v i, e = .busWrite a w v ∧ i + w ≤ s.cfg.inCap ∧
      t = { s with reply := none }.writeInput i (laneBytes w v)) ∨
    (∃ n r, e = .engine ∧ s.busy = true ∧ s.rstN = true ∧ exec (decodeWord s.lastCmd) s = .next t ∧
      t = (s.drew n).completed r) ∨
    (e = .engine ∧ ¬(s.rstN = true ∧ s.busy = true) ∧ t = s) ∨
    (∃ l, e = .rst l ∧ t = s.setRstN l) := by
  cases e with
  | busRead a w =>
    obtain ⟨n, v, rfl⟩ := busRead_next h
    exact .inl ⟨_, _, _, _, rfl, rfl⟩
  | busWrite a w v =>
    right
    obtain ⟨-, o, rfl, ⟨r, rfl, rfl, hw⟩ | ⟨i, rfl, hi, rfl⟩⟩ := busWrite_next h
    · rcases writeReg_next hw with ⟨rfl, rfl⟩ | ⟨rfl, hb, rfl⟩ | ⟨rfl, hb, hf, rfl⟩ | ⟨rfl, rfl⟩ | ⟨rfl, rfl⟩ | ⟨-, rfl⟩
      · exact .inl ⟨_, rfl, rfl⟩
      · exact .inr (.inl ⟨_, rfl, hb, rfl⟩)
      · exact .inr (.inr (.inl ⟨_, rfl, hb, hf, rfl⟩))
      · exact .inr (.inr (.inr (.inl ⟨_, rfl, rfl⟩)))
      · exact .inr (.inr (.inr (.inr (.inl ⟨_, rfl, rfl⟩))))
      · exact .inr (.inr (.inr (.inr (.inr (.inl ⟨_, _, _, rfl, rfl⟩)))))
    · exact .inr (.inr (.inr (.inr (.inr (.inr (.inl ⟨_, _, _, _, rfl, hi, rfl⟩))))))
  | engine =>
    rw [takeEvent, engineTurn_eq] at h
    split at h
    · rename_i hc
      obtain ⟨n, r, he⟩ := exec_completes (decodeWord s.lastCmd) s
      have ht := he ▸ h
      injection ht with ht
      iterate 8 right
      exact .inl ⟨_, _, rfl, hc.2, hc.1, h, ht.symm⟩
    · rename_i hc
      injection h with h
      iterate 9 right
      exact .inl ⟨rfl, hc, h.symm⟩
  | rst l =>
    injection h with h
    iterate 10 right
    exact ⟨_, rfl, h.symm⟩

/-- The cases of a step: the engine's turn with nothing at the port, or the first entry of the port. -/
theorem step_next {s t : State} (h : step s = .next t) :
    (s.port = [] ∧ takeEvent .engine s = .next t) ∨
    ∃ e rest, s.port = e :: rest ∧ takeEvent e { s with port := rest } = .next t := by
  cases hp : s.port with
  | nil =>
    rw [step_nil hp] at h
    exact .inl ⟨rfl, h⟩
  | cons e rest =>
    rw [step_cons hp] at h
    exact .inr ⟨e, rest, rfl, h⟩

/-- A run's first step. -/
theorem run_succ {s s' : State} (k : Nat) (h : step s = .next s') : core.run (k + 1) s = core.run k s' := by
  have hs : core.step s = .next s' := h
  simp [Host.Core.run, hs]

end Sys2Proof.Machine
end

