-- ==== Sys2Proof/Tests/Slice0.lean ====
section
/-! SUPPORT. Tests: each expected value is written out from the spec, mostly from 95_test_vectors.md. -/

namespace Sys2Proof.Tests

open Sys2Proof Sys2Proof.Machine

/-! ## Helpers -/

/-- The idle block after reset with these input bytes written, their number in `IN_LEN` and as the latched length. -/
def loaded (inb : List Byte) : State :=
  { State.reset with
    inBuf := Memory.ofBytes 0 inb
    inLen := BitVec.ofNat 32 inb.length
    latchedLen := BitVec.ofNat 32 inb.length }

/-- That block with command word `w` accepted. -/
def busyOn (w : Nat) (inb : List Byte) : State := { loaded inb with busy := true, lastCmd := BitVec.ofNat 32 w }

/-- `s` with these entries at its port. -/
def at_ (s : State) (port : List Event) : State := { s with port := port }

/-- What a vector of 95_test_vectors.md shows after a completion: `STATUS`, `ERR_INFO`, `OUT_LEN` and the specified
bytes of `OUT`. -/
structure Shown where
  status : Nat
  info : Nat
  outLen : Nat
  out : Memory
  deriving DecidableEq, Repr

/-- What a step shows. -/
def record (o : Host.Outcome State Fault Refusal) : Option Shown :=
  match o with
  | .next t => some { status := t.statusWord.toNat, info := t.errInfo.toNat, outLen := t.outLen.toNat, out := t.outBuf }
  | .fault _ => none
  | .refused _ => none

/-- The record of a successful vector. -/
def okRecord (out : List Byte) : Option Shown :=
  some { status := 0x00000002, info := 0x00000000, outLen := out.length, out := Memory.ofBytes 0 out }

/-- The record of a failed vector. -/
def errRecord (status info : Nat) : Option Shown :=
  some { status := status, info := info, outLen := 0, out := [] }

/-- The step that runs command word `w` on these input bytes. -/
def runs (w : Nat) (inb : List Byte) : Option Shown :=
  record (step ((loaded inb).withFetchWord 32 w))

/-- The codes of a string (41_mapper.md R131). -/
def codes (text : String) : List Byte := text.toList.map fun c => BitVec.ofNat 8 c.toNat

/-- The value a read answered, or the fault of the access. -/
def answer (o : Host.Outcome State Fault Refusal) : Sum (Option Nat) Fault :=
  match o with
  | .next t => .inl (t.reply.map Reply.value)
  | .fault f => .inr f
  | .refused _ => .inl none

/-- The state a step answers, `s` itself where it answers none. -/
def after (s : State) : State :=
  match step s with
  | .next t => t
  | .fault _ => s
  | .refused _ => s

/-! ## WellFormed: each check refuses a term -/

theorem test_illformed_illegal_enc : Instr.wellFormed (.illegal 0x00000001#32) = false := by decide
theorem test_illformed_illegal_unframe : Instr.wellFormed (.illegal 0x0000000B#32) = false := by decide
theorem test_illformed_every_command_word :
    ((List.range 11).map fun k => Instr.wellFormed (.illegal (BitVec.ofNat 32 (k + 1)))).all (· == false) = true := by
  decide
theorem test_wellformed_illegal_zero : Instr.wellFormed (.illegal 0x00000000#32) = true := by decide
theorem test_wellformed_illegal_rsv : Instr.wellFormed (.illegal 0x80000001#32) = true := by decide

/-! ## Decode: words written out bit by bit from 30_encoding.md R91 and R94 -/

theorem test_decode_enc : decodeWord 0b00000000000000000000000000000001#32 = .enc := by decide
theorem test_decode_dec : decodeWord 0b00000000000000000000000000000010#32 = .dec := by decide
theorem test_decode_cenc : decodeWord 0b00000000000000000000000000000011#32 = .cenc := by decide
theorem test_decode_cdec : decodeWord 0b00000000000000000000000000000100#32 = .cdec := by decide
theorem test_decode_todig : decodeWord 0b00000000000000000000000000000101#32 = .todig := by decide
theorem test_decode_fromdig : decodeWord 0b00000000000000000000000000000110#32 = .fromdig := by decide
theorem test_decode_map : decodeWord 0b00000000000000000000000000000111#32 = .map := by decide
theorem test_decode_unmap : decodeWord 0b00000000000000000000000000001000#32 = .unmap := by decide
theorem test_decode_csum : decodeWord 0b00000000000000000000000000001001#32 = .csum := by decide
theorem test_decode_frame : decodeWord 0b00000000000000000000000000001010#32 = .frame := by decide
theorem test_decode_unframe : decodeWord 0b00000000000000000000000000001011#32 = .unframe := by decide

/-- V-C1 to V-C5: opcode 0, the reserved opcodes, and a reserved bit beside a legal opcode. -/
theorem test_decode_illegal :
    [0x00000000#32, 0x0000000C#32, 0x0000000F#32, 0x00000011#32, 0x80000001#32].all
      (fun w => decodeWord w == .illegal w) = true := by decide

/-- The lanes in bus order (20_memory.md R64): the lowest byte first. -/
theorem test_decode_bytes : decodeBytes [0x0A#8, 0x00#8, 0x00#8, 0x00#8, 0x77#8] = .command .frame [0x77#8] := by decide
theorem test_decode_bytes_order :
    decodeBytes [0x00#8, 0x00#8, 0x00#8, 0x0A#8] = .command (.illegal 0x0A000000#32) [] := by decide
theorem test_decode_truncated : decodeBytes [0x01#8, 0x00#8, 0x00#8] = .truncated := by decide
theorem test_decode_table_word : decodeTableWord 32 0xB = some .unframe := by decide
theorem test_decode_table_word_illegal : decodeTableWord 32 0x11 = some (.illegal 0x11#32) := by decide

/-! ## One step per command: 95_test_vectors.md section 3 -/

/-- V-T10. -/
theorem test_todig_value : runs 0x5 [0xFF#8, 0xFE#8, 0xFD#8, 0xFC#8] =
    okRecord [0x06#8, 0x1F#8, 0x1E#8, 0x1C#8, 0x1D#8, 0x1A#8] := by decide
/-- V-T7. -/
theorem test_todig_drops_leading_zero : runs 0x5 [0x00#8, 0x3A#8] = okRecord [0x01#8, 0x00#8] := by decide

/-- V-F9. -/
theorem test_fromdig_value : runs 0x6 [0x06#8, 0x1F#8, 0x1E#8, 0x1C#8, 0x1D#8, 0x1A#8] =
    okRecord [0xFF#8, 0xFE#8, 0xFD#8, 0xFC#8] := by decide
/-- V-F11. -/
theorem test_fromdig_first_bad : runs 0x6 [0x00#8, 0x01#8, 0x3A#8, 0xFF#8] = errRecord 0x506 0x003A0002 := by decide

/-- V-M6 and V-M7: the ends of the alphabet's ranges. -/
theorem test_map_range_edges :
    runs 0x7 [0x09#8, 0x11#8, 0x16#8, 0x21#8, 0x2C#8] = okRecord (codes "AJPam") ∧
      runs 0x7 [0x08#8, 0x10#8, 0x15#8, 0x20#8, 0x2B#8, 0x39#8] = okRecord (codes "9HNZkz") := by decide
/-- V-M9. -/
theorem test_map_bad : runs 0x7 [0x01#8, 0x02#8, 0xC8#8] = errRecord 0x506 0x00C80002 := by decide

/-- V-U7. -/
theorem test_unmap_range_edges : runs 0x8 (codes "HJNPkm") =
    okRecord [0x10#8, 0x11#8, 0x15#8, 0x16#8, 0x2B#8, 0x2C#8] := by decide
/-- V-U17. -/
theorem test_unmap_bad : runs 0x8 (codes "12a0z") = errRecord 0x106 0x00300003 := by decide

/-- V-E7. -/
theorem test_enc_leading_zeros : runs 0x1 [0x00#8, 0x00#8, 0x01#8, 0x02#8, 0x03#8] = okRecord (codes "11Ldp") := by
  decide
/-- V-E10. -/
theorem test_enc_value : runs 0x1 [0x01#8, 0x02#8, 0x03#8, 0x04#8, 0x05#8, 0x06#8, 0x07#8, 0x08#8] =
    okRecord (codes "An6UebxCZd") := by decide

/-- V-D6 and V-D8: a symbol '1' after another has weight, a leading one is a zero byte. -/
theorem test_dec_ones : runs 0x2 (codes "21") = okRecord [0x3A#8] ∧
    runs 0x2 (codes "11Ldp") = okRecord [0x00#8, 0x00#8, 0x01#8, 0x02#8, 0x03#8] := by decide
/-- V-D12. -/
theorem test_dec_bad : runs 0x2 (codes "0OIl") = errRecord 0x106 0x00300000 := by decide

/-- V-S1, for a hash whose checksum of the empty payload is SHA-256's. -/
theorem test_csum_value (h : checksum [] = [0x5D#8, 0xF6#8, 0xE0#8, 0xE2#8]) :
    csumResult [] = .ok [0x5D#8, 0xF6#8, 0xE0#8, 0xE2#8] := by rw [csumResult, h]

/-- V-FR2, for a hash whose checksum of `[0x00]` is SHA-256's. -/
theorem test_frame_value (h : checksum [0x00#8] = [0x14#8, 0x06#8, 0xE0#8, 0x58#8]) :
    frameResult [0x00#8] = .ok [0x00#8, 0x14#8, 0x06#8, 0xE0#8, 0x58#8] := by rw [frameResult, frameOf, h]; rfl

/-- V-N2: too short, no hash needed. -/
theorem test_unframe_short : runs 0xB [0x01#8, 0x02#8, 0x03#8] = errRecord 0x206 3 := by decide
/-- V-N5 and V-N6, for SHA-256's checksum. -/
theorem test_unframe_match (h : checksum [0xFF#8, 0xFE#8, 0xFD#8, 0xFC#8] = [0xD7#8, 0xD6#8, 0x71#8, 0xB4#8]) :
    unframeResult [0xFF#8, 0xFE#8, 0xFD#8, 0xFC#8, 0xD7#8, 0xD6#8, 0x71#8, 0xB4#8] =
        .ok [0xFF#8, 0xFE#8, 0xFD#8, 0xFC#8] ∧
      unframeResult [0xFF#8, 0xFE#8, 0xFD#8, 0xFC#8, 0xD7#8, 0xD6#8, 0x71#8, 0xBA#8] =
        .err .checksumMismatch 0#32 := by
  simp [unframeResult, unframe, h]

/-- V-CE4 (W4), for SHA-256's checksum. -/
theorem test_cenc_value (h : checksum [0xFF#8, 0xFE#8, 0xFD#8, 0xFC#8] = [0xD7#8, 0xD6#8, 0x71#8, 0xB4#8]) :
    cencResult [0xFF#8, 0xFE#8, 0xFD#8, 0xFC#8] = .ok (codes "jpUz5f99p1R") := by
  rw [cencResult, frameOf, h]
  decide

/-- V-CD4: "zzzz" decodes to three bytes. -/
theorem test_cdec_short : runs 0x4 (codes "zzzz") = errRecord 0x206 3 := by decide
/-- V-CD10: the invalid character comes before any checksum. -/
theorem test_cdec_bad : runs 0x4 (codes "jpUz5f99p1R ") = errRecord 0x106 0x0020000B := by decide

/-- V-C3 and V-C5. -/
theorem test_illegal_word : runs 0xF [] = errRecord 0x406 0 ∧ runs 0x80000001 [] = errRecord 0x406 0 := by decide

/-! ## Common checks: 95_test_vectors.md section 4 -/

/-- V-C6 and V-C7: all 32 bits of `IN_LEN` are compared, and no byte of `IN` need be written. -/
theorem test_overlong :
    record (step ({ State.reset with inLen := 257#32 }.withFetchWord 32 0x1)) = errRecord 0x606 0 ∧
      record (step ({ State.reset with inLen := 0xFFFFFFFF#32 }.withFetchWord 32 0x1)) = errRecord 0x606 0 := by decide
/-- V-C8: an illegal word comes before the length. -/
theorem test_illegal_before_length :
    record (step ({ State.reset with inLen := 257#32 }.withFetchWord 32 0x0)) = errRecord 0x406 0 := by decide
/-- V-C14: the model fault at accept. -/
theorem test_unwritten_input :
    answer (step (at_ { loaded [0x01#8, 0x02#8, 0x03#8] with inLen := 4#32 } [wr32 .reference 0x00C 0x1])) =
      .inr .unwrittenInput := by decide
/-- V-C15: an illegal word reads nothing. -/
theorem test_illegal_reads_nothing :
    (after (at_ { State.reset with inLen := 4#32 } [wr32 .reference 0x00C 0x0])).busy = true := by decide

/-! ## Registers, bus and life cycle: 95_test_vectors.md section 5 -/

/-- V-H1 and V-H2. -/
theorem test_read_constants :
    (answer (step (at_ .reset [rd32 .reference 0x000])), answer (step (at_ .reset [rd32 .reference 0x004]))) =
      (.inl (some 0xB58C0001), .inl (some 0x01680100)) := by decide
/-- V-H6, V-H7, V-H8, V-H11, V-H12, V-H14: accesses the port does not admit. -/
theorem test_bus_errors :
    [rd16 .reference 0x000, rd8 .reference 0x010, wr8 .reference 0x00C 1, rd32 .reference 0x002, wr32 .reference 0x00E 1,
      rd32 .reference 0x020, rd32 .reference 0x0FFC, wr32 .reference 0x0800 0, rd16 .reference 0x1001,
      rd32 .reference 0x1002, wr32 .reference 0x1006 0, rd8 .reference 0x1100, wr8 .reference 0x1FFF 0,
      rd8 .reference 0x2168, wr8 .reference 0x2000 0, wr32 .reference 0x3FFC 0].all
        (fun e => answer (step (at_ .reset [e])) == .inr .busError) = true := by decide
/-- The last admitted byte of each window (V-H12, V-H13), and an address past the region. -/
theorem test_last_bytes : ((after (at_ .reset [rd32 .reference 0x10FC])).draws,
    (after (at_ .reset [rd8 .reference 0x2167])).draws, answer (step (at_ .reset [rd32 .reference 0x4000]))) =
      (4, 1, .inr .outsideRegion) := by decide
/-- V-H9: a word's lanes, read back narrow. -/
theorem test_write_lanes : [rd8 .reference 0x1000, rd8 .reference 0x1003, rd16 .reference 0x1002, rd32 .reference 0x1000].map
    (fun e => answer (step (at_ (after (at_ .reset [wr32 .reference 0x1000 0x44332211])) [e]))) =
      [.inl (some 0x11), .inl (some 0x44), .inl (some 0x4433), .inl (some 0x44332211)] := by decide
/-- V-H16 and V-H17. -/
theorem test_ctrl_write :
    ((after (at_ .reset [wr32 .reference 0x008 0xFFFFFFFD])).ctrlWord,
      (after (at_ { loaded [0x01#8] with ie := true } [wr32 .reference 0x008 0x00000003])).ctrlWord) =
      (1#32, 0#32) := by decide
/-- V-H18. -/
theorem test_status_write :
    (after (at_ { State.reset with done := true, wbusy := true, errCode := some .checksumMismatch }
      [wr32 .reference 0x010 0xFFFFFFFF])).statusWord = 0x304#32 := by decide
/-- V-H20. -/
theorem test_accept_clears :
    let t := after (at_ { loaded [] with done := true, ie := true, errCode := some .inLength } [wr32 .reference 0x00C 1])
    (t.statusWord, t.irq, t.errInfo) = (1#32, false, 0#32) := by decide
/-- V-H21: three ignored writes. -/
theorem test_busy_ignores : [wr32 .reference 0x00C 2, wr32 .reference 0x014 9, wr8 .reference 0x1000 0x41].all
    (fun e =>
      let t := after (at_ (busyOn 0x1 [0x07#8]) [e])
      t == { busyOn 0x1 [0x07#8] with wbusy := true }) = true := by decide
/-- V-H24. -/
theorem test_soft_reset_keeps_input :
    let t := after (at_ (busyOn 0x1 [0x01#8, 0x02#8]) [srst .reference])
    (t.busy, t.inLen, t.lastCmd, t.inBuf) = (false, 0#32, 0#32, [(0, 0x01#8), (1, 0x02#8)]) := by decide
/-- R230 of 70_reset_and_hazards.md: a rise of `RST_N` clears the written marks. -/
theorem test_power_on_clears_marks :
    (after (at_ { loaded [0x01#8] with rstN := false } [.rst true])).inBuf = [] := by decide
/-- P1: the transactions of `load` (30_encoding.md R99). -/
theorem test_load_transactions : load .reference [0x00#8, 0x00#8, 0x01#8, 0x02#8, 0x03#8] =
    [.busWrite 0x1000 4 0x02010000, .busWrite 0x1004 1 0x03, .busWrite 0x014 4 5] := by decide
/-- P1: the result as the host reads it. -/
theorem test_read_result :
    let t : State := { State.reset with outBuf := Memory.ofBytes 0 (codes "11Ldp"), outLen := 5#32 }
    (answer (step (at_ t [rd32 .reference 0x2000])), answer (step (at_ t [rd8 .reference 0x2004]))) =
      (.inl (some 0x644C3131), .inl (some 0x70)) := by decide

/-! ## The engine's datapath: 95_test_vectors.md section 2 -/

/-- Pass 1 and pass 2 of the division trace. -/
theorem test_division_passes :
    (divPass 0#6 [0xFF#8, 0xFE#8, 0xFD#8, 0xFC#8], divPass 0#6 [0x04#8, 0x69#8, 0xE9#8, 0xE5#8]) =
      (([0x04#8, 0x69#8, 0xE9#8, 0xE5#8], 26#6), ([0x00#8, 0x13#8, 0x7B#8, 0x34#8], 29#6)) := by decide
/-- The last two rows of the multiply trace. -/
theorem test_multiply_rows : (macDigit [0x13#8, 0x7B#8, 0x34#8] 29#8, macDigit [0x04#8, 0x69#8, 0xE9#8, 0xE5#8] 26#8) =
    ([0x04#8, 0x69#8, 0xE9#8, 0xE5#8], [0xFF#8, 0xFE#8, 0xFD#8, 0xFC#8]) := by decide

/-! ## Witnesses: a state and operands that meet the hypotheses of each statement, clause by clause

Each is named after its statement in Certificates/Slice0/Obligations.lean. -/

theorem witness_DecodeEncodeRoundTrip :
    Instr.wellFormed .unframe = true ∧ Instr.wellFormed (.illegal 0x0000000C#32) = true := by decide

/-- The first and the last value of each clause. -/
theorem witness_DecodeFollowsOpcodeMap :
    (0x00000010#32).toNat / 16 ≠ 0 ∧ (0xFFFFFFFF#32).toNat / 16 ≠ 0 ∧
    (0x1#32).toNat / 16 = 0 ∧ (0x1#32).toNat % 16 = 0x1 ∧ (0xB#32).toNat / 16 = 0 ∧ (0xB#32).toNat % 16 = 0xB ∧
    (0x0#32).toNat / 16 = 0 ∧ (0x0#32).toNat % 16 = 0x0 ∧ (0xC#32).toNat / 16 = 0 ∧ 0xC ≤ (0xC#32).toNat % 16 ∧
    (0xF#32).toNat / 16 = 0 ∧ 0xC ≤ (0xF#32).toNat % 16 := by decide

/-- A command is busy when `RST_N` falls, accesses come while it is low, and it rises again. -/
theorem witness_PowerOnResetGivesResetValues :
    (∃ s rest, (s : State).busy = true ∧ s.port = .rst false :: rest) ∧
    (∃ s rest, (s : State).rstN = false ∧ s.port = .busRead 0x000 4 :: rest) ∧
    (∃ s rest, (s : State).rstN = false ∧ s.port = .busWrite 0x00C 4 1 :: rest) ∧
    (∃ s, (s : State).rstN = false ∧ s.busy = true ∧ s.port = []) ∧
    (∃ s rest, (s : State).rstN = false ∧ s.busy = true ∧ s.port = .engine :: rest) ∧
    (∃ s rest, (s : State).rstN = false ∧ s.port = .rst true :: rest) :=
  ⟨⟨at_ (busyOn 1 [7#8]) [.rst false], [], by decide, rfl⟩,
    ⟨{ at_ .reset [.busRead 0x000 4] with rstN := false }, [], rfl, rfl⟩,
    ⟨{ at_ .reset [.busWrite 0x00C 4 1] with rstN := false }, [], rfl, rfl⟩,
    ⟨{ busyOn 1 [] with rstN := false }, rfl, rfl, rfl⟩,
    ⟨{ at_ (busyOn 1 []) [.engine] with rstN := false }, [], rfl, rfl, rfl⟩,
    ⟨{ at_ (busyOn 1 []) [.rst true] with rstN := false }, [], rfl, rfl⟩⟩

theorem witness_SoftResetAbandonsAndClears :
    ∃ s rest v, (s : State).rstN = true ∧ s.busy = true ∧ s.port = .busWrite (s.cfg.base + 0x008) 4 v :: rest ∧
      v / 2 % 2 = 1 :=
  ⟨at_ (busyOn 1 [7#8]) [srst .reference], [], 2, by decide⟩

/-- A busy block with written input meets the invariant, and its engine's turn answers a next state. -/
theorem witness_StepKeepsInvariant : ∃ s t, (s : State).Inv ∧ step s = .next t ∧ t.outLen = 2#32 := by
  refine ⟨busyOn 0x5 [0xFF#8], after (busyOn 0x5 [0xFF#8]), ?_, rfl, by decide⟩
  refine ⟨by decide, by decide, by decide, fun i => ?_, by decide, by decide, fun _ => by decide, fun _ => rfl,
    fun _ _ _ => by decide, fun h => absurd rfl h, fun _ => rfl, by decide⟩
  simp [busyOn, loaded, State.reset]

theorem witness_ConfigurationNeverChanges : ∃ s t, step s = .next t ∧ s.busy = true ∧ t.done = true :=
  ⟨busyOn 0x1 [0x01#8], after (busyOn 0x1 [0x01#8]), rfl, by decide⟩

theorem witness_StepRunsDecodedCommand :
    (∃ s i more, (s : State).rstN = true ∧ s.busy = true ∧ decodeBytes s.fetch = .command i more ∧ s.port = []) ∧
    (∃ s i more rest, (s : State).rstN = true ∧ s.busy = true ∧ decodeBytes s.fetch = .command i more ∧
      s.port = .engine :: rest) ∧
    (∃ s, (s : State).busy = false ∧ s.port = []) ∧
    (∃ s rest, (s : State).busy = false ∧ s.port = .engine :: rest) :=
  ⟨⟨busyOn 0xB [7#8], .unframe, [], by decide⟩, ⟨at_ (busyOn 0x1 [7#8]) [.engine], .enc, [], [], by decide⟩,
    ⟨.reset, by decide⟩, ⟨at_ .reset [.engine], [], by decide⟩⟩

theorem witness_InputIsTheWrittenBytes :
    ∃ s, (s : State).latchedLen.toNat = 3 ∧ ∀ i, i < s.latchedLen.toNat → ∃ x, s.inBuf.read? i = some x := by
  refine ⟨loaded [0x01#8, 0x02#8, 0x03#8], by decide, fun i hi => ?_⟩
  have hi : i < 3 := hi
  have h : i = 0 ∨ i = 1 ∨ i = 2 := by omega
  rcases h with rfl | rfl | rfl
  · exact ⟨0x01#8, rfl⟩
  · exact ⟨0x02#8, rfl⟩
  · exact ⟨0x03#8, rfl⟩

theorem witness_CompletionIsContained :
    ∃ s t, exec .dec s = .next t ∧ t.errCode = some .invalidCharacter :=
  ⟨busyOn 0x2 [0x30#8], after (busyOn 0x2 [0x30#8]), rfl, by decide⟩

/-- Two states that agree on the input and differ in registers, in the other bytes of `IN` and in the word. -/
theorem witness_ResultDependsOnlyOnInput :
    ∃ s₁ s₂ t₁ t₂ : State, s₁.latchedLen = s₂.latchedLen ∧ s₁.cfg.inCap = s₂.cfg.inCap ∧
      (∀ k, k < s₁.latchedLen.toNat → ∃ x, s₁.inBuf.read? k = some x ∧ s₂.inBuf.read? k = some x) ∧
      exec .todig s₁ = .next t₁ ∧ exec .todig s₂ = .next t₂ ∧ s₁ ≠ s₂ := by
  refine ⟨busyOn 0x5 [0xFF#8], { busyOn 0x5 [0xFF#8, 0x01#8] with latchedLen := 1#32, ie := true, draws := 9 },
    after (busyOn 0x5 [0xFF#8]), after { busyOn 0x5 [0xFF#8, 0x01#8] with latchedLen := 1#32, ie := true, draws := 9 },
    by decide, by decide, fun k hk => ?_, rfl, rfl, by decide⟩
  have hk : k < 1 := hk
  obtain rfl : k = 0 := by omega
  exact ⟨0xFF#8, rfl, rfl⟩

theorem witness_PollingSeesCompletion :
    ∃ (k : Nat) (s : State), k = 2 ∧ s.rstN = true ∧ s.busy = true ∧
      s.port = List.replicate k (.busRead (s.cfg.base + 0x010) 4) :=
  ⟨2, at_ (busyOn 0x1 [7#8]) [rd32 .reference 0x010, rd32 .reference 0x010], by decide⟩

/-- `IN_LEN = IN_CAP` with unwritten input faults; one more does not, nor does an illegal word, nor written input. -/
theorem witness_CommandWriteAccepts :
    (∃ s rest v, (s : State).rstN = true ∧ s.busy = false ∧ s.port = .busWrite (s.cfg.base + 0x00C) 4 v :: rest ∧
      ((decodeWord (BitVec.ofNat 32 v)).isCommand = true ∧ s.inLen.toNat ≤ s.cfg.inCap ∧
        ∃ i, i < s.inLen.toNat ∧ s.inBuf.read? i = none)) ∧
    (∃ s rest v, (s : State).rstN = true ∧ s.busy = false ∧ s.port = .busWrite (s.cfg.base + 0x00C) 4 v :: rest ∧
      (decodeWord (BitVec.ofNat 32 v)).isCommand = true ∧ ¬s.inLen.toNat ≤ s.cfg.inCap) ∧
    (∃ s rest v, (s : State).rstN = true ∧ s.busy = false ∧ s.port = .busWrite (s.cfg.base + 0x00C) 4 v :: rest ∧
      (decodeWord (BitVec.ofNat 32 v)).isCommand = false ∧ s.inLen.toNat = 4) ∧
    (∃ s rest v, (s : State).rstN = true ∧ s.busy = false ∧ s.port = .busWrite (s.cfg.base + 0x00C) 4 v :: rest ∧
      (decodeWord (BitVec.ofNat 32 v)).isCommand = true ∧ s.inLen.toNat = 1 ∧ s.inBuf.written 1 = true) :=
  ⟨⟨{ at_ .reset [wr32 .reference 0x00C 1] with inLen := 256#32 }, [], 1, by decide, by decide, rfl, by decide,
      by decide, 255, by decide, rfl⟩,
    ⟨{ at_ .reset [wr32 .reference 0x00C 1] with inLen := 257#32 }, [], 1, by decide⟩,
    ⟨{ at_ .reset [wr32 .reference 0x00C 0] with inLen := 4#32 }, [], 0, by decide⟩,
    ⟨at_ (loaded [7#8]) [wr32 .reference 0x00C 0xB], [], 0xB, by decide⟩⟩

/-- Every clause: the two ignored registers, the ends of the `IN` window, `CTRL` both ways, `STATUS`, the read-only
registers. -/
theorem witness_BusyBlockIgnoresWrites :
    [(0x00C, 4), (0x014, 4), (0x1000, 4), (0x10FC, 4), (0x10FE, 2), (0x10FF, 1), (0x008, 4), (0x010, 4), (0x000, 4),
      (0x01C, 4)].all (fun ow =>
        let s := at_ (busyOn 0x1 [7#8]) [.busWrite ((busyOn 0x1 [7#8]).cfg.base + ow.1) ow.2 2]
        s.rstN && s.busy && (s.port == [.busWrite (s.cfg.base + ow.1) ow.2 2])) = true ∧
    AdmittedBuffer 0x1000 (busyOn 0x1 [7#8]).cfg.inCap 0x1000 4 ∧ AdmittedBuffer 0x1000 (busyOn 0x1 [7#8]).cfg.inCap 0x10FC 4 ∧
    AdmittedBuffer 0x1000 (busyOn 0x1 [7#8]).cfg.inCap 0x10FE 2 ∧ AdmittedBuffer 0x1000 (busyOn 0x1 [7#8]).cfg.inCap 0x10FF 1 ∧
    2 / 2 % 2 = 1 ∧ 1 / 2 % 2 = 0 := by decide

theorem witness_IllegalWordCompletesWithError :
    (∃ s rest v, (s : State).rstN = true ∧ (∃ w, decodeWord (BitVec.ofNat 32 v) = .illegal w) ∧
      s.port = .busWrite (s.cfg.base + 0x00C) 4 v :: rest ∧ s.busy = false ∧ s.inLen = 4#32 ∧ s.inBuf = []) ∧
    (∃ s rest v, (s : State).rstN = true ∧ (∃ w, decodeWord (BitVec.ofNat 32 v) = .illegal w) ∧
      s.port = .busWrite (s.cfg.base + 0x00C) 4 v :: rest ∧ s.busy = true) :=
  ⟨⟨{ at_ .reset [wr32 .reference 0x00C 0xC] with inLen := 4#32 }, [], 0xC, rfl, ⟨0xC#32, by decide⟩, rfl, rfl, rfl, rfl⟩,
    ⟨at_ (busyOn 1 []) [wr32 .reference 0x00C 0x11], [], 0x11, rfl, ⟨0x11#32, by decide⟩, rfl, rfl⟩⟩

theorem witness_OverlongInputCompletesWithError :
    ∃ s, Instr.isCommand .csum = true ∧ (s : State).cfg.inCap < s.latchedLen.toNat :=
  ⟨{ busyOn 0x9 [] with latchedLen := 257#32 }, by decide⟩

/-- The input fits at length 0 and at length `IN_CAP` (the hypothesis of `TodigResult`, `EncResult`, `CsumResult`,
`FrameResult`, and, with `f` the frame, of `CencResult`). -/
theorem witness_InputFits :
    State.InputFits (loaded []) ∧ State.InputFits { loaded [] with latchedLen := 256#32 } := by decide

/-- Digits up to 57, and a first byte 58 behind good digits (`FromdigResult`, `MapResult`). -/
theorem witness_FromdigResult_MapResult :
    (∃ s, State.InputFits s ∧ s.inputBytes = [0x00#8, 0x39#8] ∧ ∀ x ∈ s.inputBytes, x.toNat ≤ 57) ∧
    (∃ s pre post, ∃ x : Byte, State.InputFits s ∧ s.inputBytes = pre ++ x :: post ∧ (∀ y ∈ pre, y.toNat ≤ 57) ∧
      57 < x.toNat) :=
  ⟨⟨loaded [0x00#8, 0x39#8], by decide⟩, ⟨loaded [0x39#8, 0x3A#8, 0xFF#8], [0x39#8], [0xFF#8], 0x3A#8, by decide⟩⟩

/-- A valid string, and a first invalid byte behind valid ones (`UnmapResult`, `DecResult`, `CdecResult`). -/
theorem witness_UnmapResult_DecResult :
    (∃ s, State.InputFits s ∧ s.inputBytes = codes "1z" ∧ ∀ c ∈ s.inputBytes, validSymbol c = true) ∧
    (∃ s pre post c, State.InputFits s ∧ s.inputBytes = pre ++ c :: post ∧ (∀ y ∈ pre, validSymbol y = true) ∧
      validSymbol c = false) :=
  ⟨⟨loaded (codes "1z"), by decide⟩, ⟨loaded (codes "z0l"), codes "z", codes "l", 0x30#8, by decide⟩⟩

theorem witness_CencResult :
    ∃ s f, State.InputFits s ∧
      f = s.inputBytes ++ (Config.hash256 (Config.hash256 s.inputBytes).toList).toList.take 4 :=
  ⟨loaded [7#8], _, by decide, rfl⟩

/-- The input bytes of a loaded block are the loaded bytes. -/
theorem loaded_inputBytes (inb : List Byte) (h : inb.length < 2 ^ 32) : (loaded inb).inputBytes = inb := by
  have hl : (loaded inb).latchedLen.toNat = inb.length := by
    simp only [loaded, BitVec.toNat_ofNat]
    omega
  apply List.ext_getElem?
  intro i
  simp only [State.inputBytes, hl, List.getElem?_map]
  by_cases hi : i < inb.length
  · rw [List.getElem?_range hi, List.getElem?_eq_getElem hi]
    simp [loaded, Memory.readOrDraw, hi]
  · rw [List.getElem?_eq_none (by simpa using hi), List.getElem?_eq_none (by omega)]
    rfl

/-- The bytes of a checksum, as the statements write it. -/
theorem four_bytes (p : List Byte) :
    ((Config.hash256 (Config.hash256 p).toList).toList.take 4).length = 4 := by simp

/-- Some four bytes are not a given list of bytes. -/
theorem other_four_bytes (c : List Byte) : ∃ d, (d = [0#8, 0#8, 0#8, 0#8] ∨ d = [0#8, 0#8, 0#8, 1#8]) ∧ d ≠ c := by
  by_cases h : [0#8, 0#8, 0#8, 0#8] = c
  · exact ⟨[0#8, 0#8, 0#8, 1#8], .inr rfl, by rw [← h]; decide⟩
  · exact ⟨[0#8, 0#8, 0#8, 0#8], .inl rfl, h⟩

/-- Three bytes; a frame whose checksum matches; one whose checksum does not. -/
theorem witness_UnframeResult :
    (∃ s, State.InputFits s ∧ s.latchedLen.toNat < 4 ∧ s.latchedLen.toNat = 3) ∧
    (∃ s payload claimed, State.InputFits s ∧ s.inputBytes = payload ++ claimed ∧ claimed.length = 4 ∧
      claimed = (Config.hash256 (Config.hash256 payload).toList).toList.take 4) ∧
    (∃ s payload claimed, State.InputFits s ∧ s.inputBytes = payload ++ claimed ∧ claimed.length = 4 ∧
      claimed ≠ (Config.hash256 (Config.hash256 payload).toList).toList.take 4) := by
  refine ⟨⟨loaded [1#8, 2#8, 3#8], by decide⟩, ?_, ?_⟩
  · have h4 := four_bytes [7#8]
    refine ⟨loaded ([7#8] ++ (Config.hash256 (Config.hash256 [7#8]).toList).toList.take 4), [7#8], _, ?_,
      loaded_inputBytes _ ?_, h4, rfl⟩
    · show (BitVec.ofNat 32 (List.length _)).toNat ≤ 256
      rw [List.length_append, h4]
      decide
    · rw [List.length_append, h4]
      decide
  · obtain ⟨d, hd, hne⟩ := other_four_bytes ((Config.hash256 (Config.hash256 []).toList).toList.take 4)
    refine ⟨loaded d, [], d, ?_, ?_, ?_, hne⟩ <;> rcases hd with rfl | rfl <;> decide

/-- The digit of a symbol that the alphabet gives a digit is that digit. -/
theorem dig_of_digit {x : Byte} (h : x.toNat < 58) : dig (sym x) = some x := by
  have hx : x = BitVec.ofNat 8 x.toNat := by simp
  generalize x.toNat = n at *
  subst hx
  interval_cases n <;> rfl

/-- A string with a given frame that starts with a non-zero byte. -/
theorem string_of_frame {f : List Byte} (h : f.head? ≠ some 0#8) :
    ∃ d : List Byte, (∀ c ∈ d.map sym, validSymbol c = true) ∧ d.length ≤ Nat.log2 (valBE f) + 1 ∧
      IsNotation 256 (valRadix 58 ((d.map sym).filterMap dig)) f ∧
      f = List.replicate ((d.map sym).takeWhile (· == 0x31#8)).length 0x00#8 ++ f := by
  obtain ⟨h1, h2, h3⟩ := radixDigits_isNotation (b := 58) (by omega) (by omega) (valBE f)
  refine ⟨radixDigits 58 (valBE f), ?_, ?_, ?_, ?_⟩
  · intro c hc
    obtain ⟨x, hx, rfl⟩ := List.mem_map.mp hc
    simp [validSymbol, dig_of_digit (h1 x hx)]
  · have hf : ∀ fuel v, (remainders 58 fuel v).length ≤ fuel := by
      intro fuel
      induction fuel with
      | zero => intro v; simp [remainders]
      | succ fuel ih =>
        intro v
        unfold remainders
        split
        · simp
        · simpa using ih _
    simpa [radixDigits] using hf _ _
  · have hm : ((radixDigits 58 (valBE f)).map sym).filterMap dig = radixDigits 58 (valBE f) := by
      rw [List.filterMap_map]
      refine (List.filterMap_congr (g := some) fun x hx => ?_).trans List.filterMap_some
      exact dig_of_digit (h1 x hx)
    rw [hm]
    exact ⟨fun x _ => x.isLt, h, h3.symm⟩
  · cases hd : radixDigits 58 (valBE f) with
    | nil => simp
    | cons x xs =>
      have hx : sym x ≠ 0x31#8 := by
        intro hs
        have := dig_of_digit (h1 x (by simp [hd]))
        rw [hs] at this
        have hz : x = 0x00#8 := (Option.some.inj this).symm
        exact h2 (by simp [hd, hz])
      simp [hx]

/-- The three ends of a valid string: "zzzz" decodes to three bytes; a string of a frame that matches; "1111" or "1112",
of which one does not match. -/
theorem witness_CdecResult :
    (∃ s raw f, State.InputFits s ∧ (∀ c ∈ s.inputBytes, validSymbol c = true) ∧
      IsNotation 256 (valRadix 58 (s.inputBytes.filterMap dig)) raw ∧
      f = List.replicate (s.inputBytes.takeWhile (· == 0x31#8)).length 0x00#8 ++ raw ∧ f.length < 4) ∧
    (∃ s raw f payload claimed, State.InputFits s ∧ (∀ c ∈ s.inputBytes, validSymbol c = true) ∧
      IsNotation 256 (valRadix 58 (s.inputBytes.filterMap dig)) raw ∧
      f = List.replicate (s.inputBytes.takeWhile (· == 0x31#8)).length 0x00#8 ++ raw ∧ f = payload ++ claimed ∧
      claimed.length = 4 ∧ claimed = (Config.hash256 (Config.hash256 payload).toList).toList.take 4) ∧
    (∃ s raw f payload claimed, State.InputFits s ∧ (∀ c ∈ s.inputBytes, validSymbol c = true) ∧
      IsNotation 256 (valRadix 58 (s.inputBytes.filterMap dig)) raw ∧
      f = List.replicate (s.inputBytes.takeWhile (· == 0x31#8)).length 0x00#8 ++ raw ∧ f = payload ++ claimed ∧
      claimed.length = 4 ∧ claimed ≠ (Config.hash256 (Config.hash256 payload).toList).toList.take 4) := by
  refine ⟨⟨loaded (codes "zzzz"), [0xAC#8, 0xAD#8, 0x0F#8], [0xAC#8, 0xAD#8, 0x0F#8], by unfold IsNotation; decide⟩, ?_, ?_⟩
  · have h4 := four_bytes [7#8]
    generalize hc : (Config.hash256 (Config.hash256 [7#8]).toList).toList.take 4 = claimed at h4
    obtain ⟨d, hv, hl, hn, hf⟩ := string_of_frame (f := [7#8] ++ claimed) (by simp)
    have hlt : valBE ([7#8] ++ claimed) < 2 ^ 40 := by
      have := valBE_lt ([7#8] ++ claimed)
      rw [List.length_append, h4] at this
      exact this
    have hlog : Nat.log2 (valBE ([7#8] ++ claimed)) < 40 := by
      by_cases hz : valBE ([7#8] ++ claimed) = 0
      · rw [hz]; decide
      · exact (Nat.log2_lt hz).mpr hlt
    have hlen : (d.map sym).length ≤ 40 := by
      rw [List.length_map]
      omega
    have hin := loaded_inputBytes (d.map sym) (by omega)
    refine ⟨loaded (d.map sym), _, _, [7#8], claimed, ?_, by rwa [hin], by rw [hin]; exact hn, by rw [hin]; exact hf, rfl,
      h4, hc.symm⟩
    show (BitVec.ofNat 32 (d.map sym).length).toNat ≤ 256
    rw [BitVec.toNat_ofNat]
    omega
  · obtain ⟨d, hd, hne⟩ := other_four_bytes ((Config.hash256 (Config.hash256 []).toList).toList.take 4)
    rcases hd with rfl | rfl
    · refine ⟨loaded (codes "1111"), [], [0#8, 0#8, 0#8, 0#8], [], _, ?_, ?_, ?_, ?_, rfl, rfl, hne⟩ <;>
        first | (unfold IsNotation; decide) | decide
    · refine ⟨loaded (codes "1112"), [1#8], [0#8, 0#8, 0#8, 1#8], [], _, ?_, ?_, ?_, ?_, rfl, rfl, hne⟩ <;>
        first | (unfold IsNotation; decide) | decide

theorem witness_NotationIsUnique : 2 ≤ 58 ∧ 58 ≤ 256 ∧ IsNotation 58 58 [1#8, 0#8] ∧ IsNotation 256 0 [] := by
  unfold IsNotation
  decide

/-- The digit at each end, and a byte at each end of each code range. -/
theorem witness_MapperIsBijective :
    dig 0x31#8 = some 0#8 ∧ dig 0x39#8 = some 8#8 ∧ dig 0x41#8 = some 9#8 ∧ dig 0x48#8 = some 16#8 ∧
    dig 0x4A#8 = some 17#8 ∧ dig 0x4E#8 = some 21#8 ∧ dig 0x50#8 = some 22#8 ∧ dig 0x5A#8 = some 32#8 ∧
    dig 0x61#8 = some 33#8 ∧ dig 0x6B#8 = some 43#8 ∧ dig 0x6D#8 = some 44#8 ∧ dig 0x7A#8 = some 57#8 ∧
    [0x00#8, 0x30#8, 0x3A#8, 0x40#8, 0x49#8, 0x4F#8, 0x5B#8, 0x60#8, 0x6C#8, 0x7B#8, 0xFF#8].all
      (fun c => dig c == none) = true := by decide

/-- The alphabet's domain, which is also that of `MultiplyEngineComputesFromDigits` and `ConverterRoundTrip`. -/
theorem witness_AlphabetIsTheStatedString : (0x39#8).toNat ≤ 57 ∧ ∀ x ∈ [0#8, 0x39#8], (x : Byte).toNat ≤ 57 := by decide

theorem witness_EncodeKeepsLeadingZeros : ([0x3A#8] : List Byte).head? ≠ some 0x00#8 ∧
    ([] : List Byte).head? ≠ some 0x00#8 := by decide

theorem witness_DecodeUndoesEncode : encResult [0x00#8, 0xFF#8] = .ok (codes "15Q") := by decide

theorem witness_EncodeUndoesDecode : (∀ c ∈ codes "15Q", validSymbol c = true) ∧
    decResult (codes "15Q") = .ok [0x00#8, 0xFF#8] := by decide

theorem witness_UnframeUndoesFrame : ∃ out, frameResult [0x07#8] = .ok out := ⟨_, rfl⟩

theorem witness_CheckDecodeUndoesCheckEncode : (∃ out, cencResult [0x07#8] = .ok out) ∧
    decResult (codes "0") = .err .invalidCharacter 0x00300000#32 ∧ decResult (codes "21") = .ok [0x3A#8] :=
  ⟨⟨_, rfl⟩, by decide, by decide⟩

theorem witness_EncodingFitsItsBound : encResult [0x00#8, 0xFF#8] = .ok (codes "15Q") ∧
    (∃ out, cencResult [0x07#8] = .ok out) ∧ (∃ s t, exec .enc s = .next t ∧ t.outLen = 3#32) :=
  ⟨by decide, ⟨_, rfl⟩, ⟨busyOn 0x1 [0x00#8, 0xFF#8], after (busyOn 0x1 [0x00#8, 0xFF#8]), rfl, by decide⟩⟩

theorem witness_DecodingIsNoLonger : decResult (codes "21") = .ok [0x3A#8] ∧
    fromdigResult [0x04#8, 0x17#8] = .ok [0xFF#8] := by decide

/-- Offsets at the ends of each window, admitted and not. -/
theorem witness_PortAdmitsExactly :
    AdmittedRegister 0x01C 4 ∧ ¬AdmittedRegister 0x020 4 ∧ ¬AdmittedRegister 0x01C 2 ∧
    AdmittedBuffer 0x1000 Config.reference.inCap 0x10FF 1 ∧ ¬AdmittedBuffer 0x1000 Config.reference.inCap 0x1100 1 ∧
    AdmittedBuffer 0x2000 Config.reference.outCap 0x2167 1 ∧ ¬AdmittedBuffer 0x2000 Config.reference.outCap 0x2168 1 ∧
    ¬AdmittedBuffer 0x1000 Config.reference.inCap 0x1001 2 ∧
    (∃ s rest o w, (s : State).rstN = true ∧ o < 0x4000 ∧ s.port = .busRead (s.cfg.base + o) w :: rest ∧ o = 0x3FFF) ∧
    (∃ s rest o w v, (s : State).rstN = true ∧ o < 0x4000 ∧ s.port = .busWrite (s.cfg.base + o) w v :: rest ∧
      o = 0x10FF) :=
  ⟨by decide, by decide, by decide, by decide, by decide, by decide, by decide, by decide,
    ⟨at_ .reset [rd8 .reference 0x3FFF], [], 0x3FFF, 1, by decide⟩,
    ⟨at_ .reset [wr8 .reference 0x10FF 7], [], 0x10FF, 1, 7, by decide⟩⟩

theorem witness_RegisterReadReturnsItsWord :
    ∃ s rest o value, (s : State).rstN = true ∧ s.port = .busRead (s.cfg.base + o) 4 :: rest ∧ o = 0x01C ∧
      value = s.errInfo.toNat ∧ value = 0x00300003 :=
  ⟨{ at_ .reset [rd32 .reference 0x01C] with errInfo := 0x00300003#32 }, [], 0x01C, _, rfl, rfl, rfl, rfl, by decide⟩

/-- The last word of `IN` and the last byte of `OUT`. -/
theorem witness_BufferReadIsLittleEndian :
    (∃ s rest o w, (s : State).rstN = true ∧ s.port = .busRead (s.cfg.base + o) w :: rest ∧
      AdmittedBuffer 0x1000 s.cfg.inCap o w ∧ s.inBuf.read? (o - 0x1000 + 3) = some 7#8 ∧ 3 < w) ∧
    (∃ s rest o w, (s : State).rstN = true ∧ s.port = .busRead (s.cfg.base + o) w :: rest ∧
      AdmittedBuffer 0x2000 s.cfg.outCap o w ∧ o = 0x2167) :=
  ⟨⟨{ at_ .reset [rd32 .reference 0x10FC] with inBuf := [(255, 7#8)] }, [], 0x10FC, 4, by decide⟩,
    ⟨at_ .reset [rd8 .reference 0x2167], [], 0x2167, 1, by decide⟩⟩

theorem witness_InputWriteStoresItsLanes :
    ∃ s rest o w v, (s : State).rstN = true ∧ s.busy = false ∧ s.port = .busWrite (s.cfg.base + o) w v :: rest ∧
      AdmittedBuffer 0x1000 s.cfg.inCap o w ∧ o = 0x10FE :=
  ⟨at_ .reset [wr16 .reference 0x10FE 0xBBAA], [], 0x10FE, 2, 0xBBAA, by decide⟩

theorem witness_ControlRegisterRule :
    (∃ s rest v, (s : State).rstN = true ∧ s.port = .busWrite (s.cfg.base + 0x008) 4 v :: rest ∧ v / 2 % 2 = 0 ∧ v % 2 = 1) ∧
    (∃ s rest v, (s : State).rstN = true ∧ s.port = .busWrite (s.cfg.base + 0x008) 4 v :: rest ∧ v / 2 % 2 = 1) :=
  ⟨⟨at_ .reset [wr32 .reference 0x008 0xFFFFFFFD], [], 0xFFFFFFFD, by decide⟩,
    ⟨at_ (busyOn 1 []) [wr32 .reference 0x008 3], [], 3, by decide⟩⟩

/-- Also of `ReadOnlyAndReservedBits`: two values that differ in reserved bits only. -/
theorem witness_StatusRegisterRule :
    (∃ s rest v, (s : State).rstN = true ∧ s.port = .busWrite (s.cfg.base + 0x010) 4 v :: rest ∧ v = 0xFFFFFFFF) ∧
    2 / 2 % 2 = 0xFFFFFFF7 / 2 % 2 ∧ 2 / 8 % 2 = 0xFFFFFFF7 / 8 % 2 ∧ 1 % 4 = 0xFFFFFFFD % 4 :=
  ⟨⟨at_ .reset [wr32 .reference 0x010 0xFFFFFFFF], [], _, rfl, rfl, rfl⟩, by decide⟩

theorem witness_InputLengthIsStoredAsWritten :
    ∃ s rest v, (s : State).rstN = true ∧ s.busy = false ∧ v < 2 ^ 32 ∧
      s.port = .busWrite (s.cfg.base + 0x014) 4 v :: rest ∧ v = 0xFFFFFFFF :=
  ⟨at_ .reset [wr32 .reference 0x014 0xFFFFFFFF], [], 0xFFFFFFFF, by decide⟩

/-- The invariant's hypothesis is witnessed by `witness_StepKeepsInvariant`. -/
theorem witness_ReadOnlyAndReservedBits :
    ∃ s rest o v, (s : State).rstN = true ∧ s.port = .busWrite (s.cfg.base + o) 4 v :: rest ∧
      (o = 0x000 ∨ o = 0x004 ∨ o = 0x018 ∨ o = 0x01C) ∧ o = 0x01C :=
  ⟨at_ .reset [wr32 .reference 0x01C 5], [], 0x01C, 5, by decide⟩

theorem witness_ReadsHaveNoSideEffect :
    ∃ (s t : State) (rest : List Event) (addr w : Nat), s.port = .busRead addr w :: rest ∧ step s = .next t ∧
      t.draws = 4 :=
  ⟨at_ .reset [rd32 .reference 0x1000], after (at_ .reset [rd32 .reference 0x1000]), [], 0x1000, 4, rfl, rfl, by decide⟩

/-- A write of each of the three registers, with its condition, and a rise of `RST_N`. -/
theorem witness_InterruptFollowsEnableAndDone :
    (∃ s t : State, s.rstN = true ∧ step s = .next t ∧ s.port = [.busWrite (s.cfg.base + 0x008) 4 1] ∧ s.done = true) ∧
    (∃ s t : State, s.rstN = true ∧ step s = .next t ∧ s.port = [.busWrite (s.cfg.base + 0x008) 4 0]) ∧
    (∃ s t : State, s.rstN = true ∧ step s = .next t ∧ s.port = [.busWrite (s.cfg.base + 0x008) 4 2]) ∧
    (∃ s t : State, s.rstN = true ∧ step s = .next t ∧ s.port = [.busWrite (s.cfg.base + 0x010) 4 2]) ∧
    (∃ s t : State, s.rstN = true ∧ step s = .next t ∧ s.port = [.busWrite (s.cfg.base + 0x00C) 4 1] ∧ s.busy = false) ∧
    (∃ s t : State, s.rstN = false ∧ step s = .next t ∧ s.port = [.rst true]) :=
  ⟨⟨at_ { State.reset with done := true } [wr32 .reference 0x008 1], _, rfl, rfl, rfl, rfl⟩,
    ⟨at_ .reset [wr32 .reference 0x008 0], _, rfl, rfl, rfl⟩, ⟨at_ .reset [wr32 .reference 0x008 2], _, rfl, rfl, rfl⟩,
    ⟨at_ .reset [wr32 .reference 0x010 2], _, rfl, rfl, rfl⟩,
    ⟨at_ .reset [wr32 .reference 0x00C 1], after (at_ .reset [wr32 .reference 0x00C 1]), rfl, rfl, rfl, rfl⟩,
    ⟨{ at_ .reset [.rst true] with rstN := false }, _, rfl, rfl, rfl⟩⟩

theorem witness_CommandWriteRacesCompletion :
    (∃ s rest v, (s : State).rstN = true ∧ s.busy = true ∧ s.inBuf.written s.inLen.toNat = true ∧
      s.port = .busWrite (s.cfg.base + 0x00C) 4 v :: .engine :: rest) ∧
    (∃ s rest v, (s : State).rstN = true ∧ s.busy = true ∧ (decodeWord (BitVec.ofNat 32 v)).isCommand = false ∧
      s.port = .engine :: .busWrite (s.cfg.base + 0x00C) 4 v :: rest) :=
  ⟨⟨at_ (busyOn 1 [7#8]) [wr32 .reference 0x00C 2, .engine], [], 2, by decide⟩,
    ⟨at_ (busyOn 1 [7#8]) [.engine, wr32 .reference 0x00C 0], [], 0, by decide⟩⟩

/-- A finished command, and a write of `CTRL` that is no reset. -/
theorem witness_RecordStaysUntilAcceptOrReset :
    ∃ s t : State, s.busy = false ∧ step s = .next t ∧ t.busy = false ∧ (∀ rest, s.port ≠ .rst true :: rest) ∧
      (∀ rest v, s.port = .busWrite (s.cfg.base + 0x008) 4 v :: rest → v / 2 % 2 = 0) ∧ s.outLen = 2#32 := by
  refine ⟨at_ (after (busyOn 0x5 [0xFF#8])) [wr32 .reference 0x008 1],
    after (at_ (after (busyOn 0x5 [0xFF#8])) [wr32 .reference 0x008 1]), by decide, rfl, by decide, ?_, ?_, by decide⟩
  · intro rest h
    simp [at_, wr32] at h
  · intro rest v h
    have hv : v = 1 := by
      simp only [at_, wr32, List.cons.injEq, Event.busWrite.injEq] at h
      exact h.1.2.2.symm
    omega

/-- The three ways out. -/
theorem witness_WriteBusyFlagIsSticky :
    (∃ s t : State, step s = .next t ∧ s.wbusy = true ∧ t.wbusy = false ∧ s.port = [.busWrite 0x010 4 8]) ∧
    (∃ s t : State, step s = .next t ∧ s.wbusy = true ∧ t.wbusy = false ∧ s.port = [.busWrite 0x008 4 2]) ∧
    (∃ s t : State, step s = .next t ∧ s.wbusy = true ∧ t.wbusy = false ∧ s.port = [.rst true]) :=
  ⟨⟨at_ { State.reset with wbusy := true } [.busWrite 0x010 4 8], _, rfl, rfl, rfl, rfl⟩,
    ⟨at_ { State.reset with wbusy := true } [.busWrite 0x008 4 2], _, rfl, rfl, rfl, rfl⟩,
    ⟨at_ { State.reset with wbusy := true, rstN := false } [.rst true], _, rfl, rfl, rfl, rfl⟩⟩

/-- A rise of `BUSY`, and a fall of each kind. -/
theorem witness_BusyOnlyChangesAsDocumented :
    (∃ s t : State, step s = .next t ∧ s.busy = false ∧ t.busy = true) ∧
    (∃ s t : State, step s = .next t ∧ s.busy = true ∧ t.busy = false ∧ s.port = [.engine]) ∧
    (∃ s t : State, step s = .next t ∧ s.busy = true ∧ t.busy = false ∧ s.port = [.busWrite 0x008 4 2]) ∧
    (∃ s t : State, step s = .next t ∧ s.busy = true ∧ t.busy = false ∧ s.port = [.rst true]) :=
  ⟨⟨at_ .reset [wr32 .reference 0x00C 1], after (at_ .reset [wr32 .reference 0x00C 1]), rfl, rfl, rfl⟩,
    ⟨at_ (busyOn 1 [7#8]) [.engine], after (at_ (busyOn 1 [7#8]) [.engine]), rfl, rfl, rfl, rfl⟩,
    ⟨at_ (busyOn 1 [7#8]) [.busWrite 0x008 4 2], _, rfl, rfl, rfl, rfl⟩,
    ⟨{ at_ (busyOn 1 [7#8]) [.rst true] with rstN := false }, _, rfl, rfl, rfl, rfl⟩⟩

end Sys2Proof.Tests
end

section
/-! SUPPORT. The registers `CTRL` and `STATUS`: the bits a read shows and the bits a write obeys, and the proofs of the
statements about them. -/

namespace Sys2Proof.Machine

/-! Bits of the words a read returns. -/

/-- A word below `2^k` has no bit from `k` on. -/
theorem getLsbD_of_toNat_lt {w : Word} {k i : Nat} (h : w.toNat < 2 ^ k) (hi : k ≤ i) : w.getLsbD i = false :=
  Nat.testBit_lt_two_pow (h.trans_le (Nat.pow_le_pow_right (by omega) hi))

@[simp] theorem State.ctrlWord_toNat (s : State) : s.ctrlWord.toNat = s.ie.toNat := by
  have := s.ie.toNat_lt
  simp only [State.ctrlWord, BitVec.toNat_ofNat]
  omega

theorem State.ctrlWord_bit0 (s : State) : s.ctrlWord.getLsbD 0 = s.ie := by
  cases h : s.ie <;> simp [State.ctrlWord, h]

/-- `CTRL` has one bit that reads as anything but 0 (spec 10_state.md R25). -/
theorem State.ctrlWord_reserved (s : State) {i : Nat} (hi : 1 ≤ i) : s.ctrlWord.getLsbD i = false :=
  getLsbD_of_toNat_lt (by simpa using s.ie.toNat_lt) hi

theorem State.errCodeField_le (s : State) : s.errCodeField ≤ 6 := by
  unfold State.errCodeField
  split
  · omega
  · rename_i k _
    cases k <;> decide

/-- The fields of `STATUS` fit below bit 12: the four flags, then `ERRCODE` from bit 8 on (spec 10_state.md R27). -/
theorem State.statusWord_toNat (s : State) : s.statusWord.toNat =
    s.busy.toNat + 2 * s.done.toNat + 4 * s.err.toNat + 8 * s.wbusy.toNat + 256 * s.errCodeField := by
  have := s.errCodeField_le
  have := s.busy.toNat_lt
  have := s.done.toNat_lt
  have := s.err.toNat_lt
  have := s.wbusy.toNat_lt
  simp only [State.statusWord, BitVec.toNat_ofNat]
  omega

/-- The reserved bits of `STATUS` read 0 (spec 10_state.md R27). -/
theorem State.statusWord_reserved (s : State) {i : Nat} (hi : (4 ≤ i ∧ i ≤ 7) ∨ 12 ≤ i) :
    s.statusWord.getLsbD i = false := by
  have hword := s.statusWord_toNat
  have := s.errCodeField_le
  have := s.busy.toNat_lt
  have := s.done.toNat_lt
  have := s.err.toNat_lt
  have := s.wbusy.toNat_lt
  rcases hi with ⟨h4, h7⟩ | h12
  · rw [BitVec.getLsbD, Nat.testBit_eq_decide_div_mod_eq, decide_eq_false_iff_not]
    interval_cases i <;> omega
  · exact getLsbD_of_toNat_lt (k := 12) (by omega) h12

/-! Writes of `CTRL` and `STATUS`. -/

/-- With bit 1 clear a write of `CTRL` sets `IE` only. -/
theorem State.writeCtrl_noReset {v : Word} (s : State) (h : v.getLsbD 1 = false) :
    s.writeCtrl v = { s with ie := v.getLsbD 0 } :=
  if_neg (Bool.eq_false_iff.mp h)

/-- With bit 1 set a write of `CTRL` is the soft reset: what it did to `IE` before is lost. -/
theorem State.writeCtrl_reset {v : Word} (s : State) (h : v.getLsbD 1 = true) : s.writeCtrl v = s.softReset :=
  if_pos h

/-- A write of `CTRL` obeys bits 0 and 1 only. -/
theorem State.writeCtrl_congr {v v' : Word} (s : State) (h0 : v.getLsbD 0 = v'.getLsbD 0)
    (h1 : v.getLsbD 1 = v'.getLsbD 1) : s.writeCtrl v = s.writeCtrl v' := by
  simp only [State.writeCtrl, h0, h1]

/-- A write of `STATUS` obeys bits 1 and 3 only. -/
theorem State.writeStatus_congr {v v' : Word} (s : State) (h1 : v.getLsbD 1 = v'.getLsbD 1)
    (h3 : v.getLsbD 3 = v'.getLsbD 3) : s.writeStatus v = s.writeStatus v' := by
  simp only [State.writeStatus, h1, h3]

/-- While `RST_N` is low the block admits no write. -/
theorem busWrite_heldInReset {s : State} (addr w data : Nat) (h : s.rstN = false) :
    busWrite addr w data s = .fault .heldInReset := by
  simp [busWrite, h]

/-- Two values that a register's write does not tell apart are the same bus write, in reset or out of it. -/
theorem busWrite_reg_congr (r : Reg) (s : State) {v v' : Nat}
    (h : ∀ t, writeReg r (BitVec.ofNat 32 v) t = writeReg r (BitVec.ofNat 32 v') t) :
    busWrite (s.cfg.base + r.offset) 4 v s = busWrite (s.cfg.base + r.offset) 4 v' s := by
  cases hr : s.rstN with
  | true => rw [busWrite_reg r v hr, busWrite_reg r v' hr, h]
  | false => rw [busWrite_heldInReset _ _ _ hr, busWrite_heldInReset _ _ _ hr]

/-- Steps that take such writes off the port agree, with no hypothesis on `RST_N`. -/
theorem step_writeReg_congr (r : Reg) (s : State) (rest : List Event) {v v' : Nat}
    (h : ∀ t, writeReg r (BitVec.ofNat 32 v) t = writeReg r (BitVec.ofNat 32 v') t) :
    step { s with port := .busWrite (s.cfg.base + r.offset) 4 v :: rest } =
      step { s with port := .busWrite (s.cfg.base + r.offset) 4 v' :: rest } := by
  rw [step_cons rfl, step_cons rfl]
  exact busWrite_reg_congr r { s with port := rest } h

/-! The statements. -/

/-- Settles O50: the bits of `ctrlWord`, and the two cases of `writeCtrl`. -/
theorem controlRegisterRule : Obligations.ControlRegisterRule := by
  refine ⟨fun s => ⟨s.ctrlWord_bit0, fun i hi => s.ctrlWord_reserved hi⟩,
    fun s rest v hr hp => ?_⟩
  have hstep : step s = .next (State.writeCtrl { s with reply := none, port := rest } (BitVec.ofNat 32 v)) :=
    step_writeReg .ctrl hr hp
  refine ⟨fun hv => ?_, fun hv => ⟨_, hstep, ?_⟩⟩
  · rw [hstep, State.writeCtrl_noReset _ ((ofNat_bit1 v).trans (by simp [hv])), ofNat_bit0]
  · rw [State.writeCtrl_reset _ ((ofNat_bit1 v).trans (by simp [hv]))]
    simp

/-- Settles O53: a read-only register's write is the identity, the writes of `CTRL` and `STATUS` obey their defined
bits only, and the invariant bounds `ERR_INFO`. -/
theorem readOnlyAndReservedBits : Obligations.ReadOnlyAndReservedBits := by
  refine ⟨fun s rest o v hr hp ho => ?_, fun s rest v v' => ⟨fun hv => ?_, fun h1 h3 => ?_⟩, fun s hs => ⟨?_, ?_, ?_⟩⟩
  · rcases ho with rfl | rfl | rfl | rfl
    · exact step_writeReg .id hr hp
    · exact step_writeReg .caps hr hp
    · exact step_writeReg .outLen hr hp
    · exact step_writeReg .errInfo hr hp
  · have h0 : v % 2 = v' % 2 := by omega
    have h1 : v / 2 % 2 = v' / 2 % 2 := by omega
    exact step_writeReg_congr .ctrl s rest fun t =>
      congrArg Host.Outcome.next (t.writeCtrl_congr (by simp only [ofNat_bit0, h0]) (by simp only [ofNat_bit1, h1]))
  · exact step_writeReg_congr .status s rest fun t =>
      congrArg Host.Outcome.next (t.writeStatus_congr (by simp only [ofNat_bit1, h1]) (by simp only [ofNat_bit3, h3]))
  · exact fun i hi => s.ctrlWord_reserved (by omega)
  · exact fun i hi => s.statusWord_reserved hi
  · exact fun i hi => getLsbD_of_toNat_lt hs.infoReserved hi

end Sys2Proof.Machine
end

section
/-! SUPPORT. The command word: its two fields as numbers, the decoder and the encoder as inverses of each other, and the
proofs of the statements about decoding and about the illegal row. -/

namespace Sys2Proof

/-! The fields of a command word. -/

/-- `OP` is the low hexadecimal digit of the word (spec 30_encoding.md R91). -/
theorem opField_toNat (w : Word) : (opField w).toNat = w.toNat % 16 := by
  simp [opField, BitVec.extractLsb'_toNat]

/-- `RSV` is zero where the word is its low hexadecimal digit alone (spec 30_encoding.md R91). -/
theorem rsvField_eq_zero_iff (w : Word) : rsvField w = 0 ↔ w.toNat / 16 = 0 := by
  have hlt := w.isLt
  have hr : (rsvField w).toNat = w.toNat / 16 := by
    simp only [rsvField, BitVec.extractLsb'_toNat, Nat.shiftRight_eq_div_pow]
    omega
  rw [← hr, ← BitVec.toNat_inj]
  rfl

/-! The legal commands and their words. -/

/-- The eleven legal commands in the order of the opcode map (spec 30_encoding.md R94). -/
def commands : List Instr := [.enc, .dec, .cenc, .cdec, .todig, .fromdig, .map, .unmap, .csum, .frame, .unframe]

theorem mem_commands {i : Instr} : i ∈ commands ↔ i.isCommand = true := by
  cases i <;> simp [commands, Instr.isCommand]

/-- The command words are the encodings of the legal commands. -/
theorem isCommandWord_iff {w : Word} : isCommandWord w = true ↔ ∃ i : Instr, i.isCommand = true ∧ encode i = w := by
  have hlist : isCommandWord w = (commands.map encode).contains w := rfl
  simp only [hlist, List.contains_iff_mem, List.mem_map, mem_commands]

/-! The cases of the decoder. -/

theorem decodeWord_of_rsv {w : Word} (h : rsvField w ≠ 0) : decodeWord w = .illegal w := if_pos h

theorem decodeWord_of_reservedOp {w : Word} (h : (opField w).toNat = 0x0 ∨ 0xC ≤ (opField w).toNat) :
    decodeWord w = .illegal w := by
  unfold decodeWord
  split
  · rfl
  · split
    case h_12 => rfl
    all_goals omega

/-- The decoder undoes the encoder on the legal commands. -/
theorem decodeWord_encode {i : Instr} (h : i.isCommand = true) : decodeWord (encode i) = i := by
  cases i with
  | illegal w => simp [Instr.isCommand] at h
  | _ => rfl

/-- With `RSV` zero and the opcode of a command, the word is the command's own. -/
theorem decodeWord_of_op (i : Instr) {w : Word} (hi : i.isCommand = true) (hr : w.toNat / 16 = 0)
    (hop : w.toNat % 16 = (encode i).toNat) : decodeWord w = i := by
  have hw : w = encode i := BitVec.eq_of_toNat_eq (by omega)
  rw [hw, decodeWord_encode hi]

/-- The encoder undoes the decoder on every word: a word is a command's, or stays what it is in the illegal row. -/
theorem encode_decodeWord (w : Word) : encode (decodeWord w) = w := by
  by_cases hr : rsvField w = 0
  · by_cases hop : 0x1 ≤ (opField w).toNat ∧ (opField w).toNat ≤ 0xB
    · obtain ⟨i, hi, rfl⟩ := isCommandWord_iff.mp (Laws.OpcodeField.isCommandWord_of_fields hr hop.1 hop.2)
      rw [decodeWord_encode hi]
    · rw [decodeWord_of_reservedOp (by omega), encode]
  · rw [decodeWord_of_rsv hr, encode]

/-- The legal words are those of the eleven commands. -/
theorem decodeWord_isCommand_iff (w : Word) : (decodeWord w).isCommand = true ↔ w ∈ commands.map encode := by
  rw [List.mem_map]
  constructor
  · exact fun h => ⟨decodeWord w, mem_commands.mpr h, encode_decodeWord w⟩
  · rintro ⟨i, hi, rfl⟩
    rw [mem_commands] at hi
    rwa [decodeWord_encode hi]

/-- Settles O3: each opcode's word is the encoding of its command, and the legal words are the encodings of the eleven
commands. -/
theorem decodeFollowsOpcodeMap : Obligations.DecodeFollowsOpcodeMap := by
  refine ⟨fun w hr => ?_, fun w hr => ?_, commands.map encode, by decide, rfl, decodeWord_isCommand_iff⟩
  · exact decodeWord_of_rsv (mt (rsvField_eq_zero_iff w).mp hr)
  · refine ⟨decodeWord_of_op .enc rfl hr, decodeWord_of_op .dec rfl hr, decodeWord_of_op .cenc rfl hr,
      decodeWord_of_op .cdec rfl hr, decodeWord_of_op .todig rfl hr, decodeWord_of_op .fromdig rfl hr,
      decodeWord_of_op .map rfl hr, decodeWord_of_op .unmap rfl hr, decodeWord_of_op .csum rfl hr,
      decodeWord_of_op .frame rfl hr, decodeWord_of_op .unframe rfl hr,
      fun hop => ?_⟩
    exact decodeWord_of_reservedOp (by rwa [opField_toNat])

end Sys2Proof

namespace Sys2Proof.Machine

/-! Writes of `CMD`. -/

/-- A busy block ignores the write and sets `WBUSY` (spec 70_reset_and_hazards.md R240). -/
theorem writeReg_cmd_busy (v : Word) {s : State} (h : s.busy = true) :
    writeReg .cmd v s = .next s.ignoredWhileBusy := if_pos h

/-- An idle block takes the accept step (spec 60_exceptions.md R201). -/
theorem writeReg_cmd_idle (v : Word) {s : State} (h : s.busy = false) : writeReg .cmd v s = accept v s :=
  if_neg (Bool.eq_false_iff.mp h)

/-- The accept of a word that is no command is never the model fault (spec 30_encoding.md R96). -/
theorem accept_of_not_isCommand {v : Word} (s : State) (h : (decodeWord v).isCommand = false) :
    accept v s = .next (s.accepted v) := by
  have hfault : s.acceptFaults v = false := by simp [State.acceptFaults, h]
  rw [accept_eq, if_neg (Bool.eq_false_iff.mp hfault)]

/-- The complete step of the illegal row (spec 30_encoding.md R96). -/
theorem exec_illegal (w : Word) (s : State) :
    exec (.illegal w) s = .next (s.completed (.err .illegalCommand 0#32)) := rfl

/-- Settles O19: the two cases of a write of `CMD`, an accept that cannot fault, and the error record. -/
theorem illegalWordCompletesWithError : Obligations.IllegalWordCompletesWithError := by
  refine ⟨fun s rest v hr ⟨w, hw⟩ hp => ?_, fun s w => ⟨_, exec_illegal w s, State.completedErr (n := 0)⟩⟩
  have hstep := step_writeReg .cmd hr hp
  have hnot : (decodeWord (BitVec.ofNat 32 v)).isCommand = false := by rw [hw, Instr.isCommand]
  refine ⟨fun hidle => ?_, fun hbusy => hstep.trans (writeReg_cmd_busy _ hbusy)⟩
  have haccept := hstep.trans (writeReg_cmd_idle _ hidle)
  exact ⟨_, haccept.trans (accept_of_not_isCommand _ hnot), State.accepted_busy .., State.accepted_lastCmd ..⟩

end Sys2Proof.Machine
end

section
/-! SUPPORT. The digit sequence of a number (`IsNotation`) is unique and its length follows its size, and the proofs of
the statements about the base converter. -/

namespace Sys2Proof.Machine

/-! The digit sequence of a number in a radix. -/

/-- No digit sequence but the computed one denotes the number without a leading zero (spec 00_scope.md R16). -/
theorem IsNotation.eq_radixDigits {b v : Nat} {d : List Byte} (hb : 2 ≤ b) (h : IsNotation b v d) :
    d = radixDigits b v := by
  obtain ⟨hlt, hhead, rfl⟩ := h
  have hdigits : Nat.digits b (valRadix b d) = d.reverse.map BitVec.toNat := by
    rw [valRadix_eq_ofDigits]
    refine Nat.digits_ofDigits b hb _ (fun x hx => ?_) (fun hne hlast => hhead ?_)
    · obtain ⟨y, hy, rfl⟩ := List.mem_map.mp hx
      exact hlt y (List.mem_reverse.mp hy)
    · cases d with
      | nil => simp at hne
      | cons x xs => simpa [← BitVec.toNat_inj] using hlast
  rw [radixDigits_eq hb, hdigits]
  simp [Function.comp_def]

/-- A number below `b^k` has at most `k` digits: the first digit of a longer sequence, not zero, stands for `b^k` or
more. -/
theorem IsNotation.length_le {b v k : Nat} {d : List Byte} (hb : 2 ≤ b) (h : IsNotation b v d) (hv : v < b ^ k) :
    d.length ≤ k := by
  obtain ⟨-, hhead, rfl⟩ := h
  cases d with
  | nil => simp
  | cons x xs =>
    have hx : 1 ≤ x.toNat := by
      rw [Nat.one_le_iff_ne_zero]
      simpa [← BitVec.toNat_inj] using hhead
    have hpow : b ^ xs.length < b ^ k := by
      rw [valRadix_cons] at hv
      have := Nat.le_mul_of_pos_left (b ^ xs.length) hx
      omega
    exact (Nat.pow_lt_pow_iff_right (by omega)).mp hpow

/-- Without its leading zeros a digit sequence is the one that denotes its value. -/
theorem drop_lz_isNotation {b : Nat} {s : List Byte} (h : ∀ x ∈ s, x.toNat < b) :
    IsNotation b (valRadix b s) (s.drop (lz s)) := by
  obtain ⟨hsplit, hhead⟩ := leadingRun_split 0x00#8 s
  refine ⟨fun x hx => h x (List.mem_of_mem_drop hx), hhead, ?_⟩
  conv_rhs => rw [hsplit]
  rw [valRadix_zeros_append, lz]

theorem radixDigits_valRadix {b : Nat} (hb : 2 ≤ b) {s : List Byte} (h : ∀ x ∈ s, x.toNat < b) :
    radixDigits b (valRadix b s) = s.drop (lz s) :=
  ((drop_lz_isNotation h).eq_radixDigits hb).symm

theorem radixDigits_eq_nil_iff {b v : Nat} (hb : 2 ≤ b) : radixDigits b v = [] ↔ v = 0 := by
  rw [radixDigits_eq hb, List.map_eq_nil_iff, List.reverse_eq_nil_iff, Nat.digits_eq_nil_iff_eq_zero]

/-! The converter's two directions. -/

theorem toDigits_isNotation (s : List Byte) : IsNotation 58 (valBE s) (toDigits s) :=
  radixDigits_isNotation (by omega) (by omega) _

theorem fromDigits_isNotation (d : List Byte) : IsNotation 256 (valRadix 58 d) (fromDigits d) :=
  radixDigits_isNotation (by omega) (by omega) _

/-- The ratio 138 / 100 is above the number of base-58 digits a byte needs: `256^100 ≤ 58^138`. -/
theorem pow_256_le_pow_58 (n : Nat) : 256 ^ n ≤ 58 ^ (n * 138 / 100 + 1) := by
  refine (Nat.pow_le_pow_iff_left (n := 100) (by omega)).mp ?_
  calc (256 ^ n) ^ 100 = (256 ^ 100) ^ n := by rw [← Nat.pow_mul, ← Nat.pow_mul, Nat.mul_comm]
    _ ≤ (58 ^ 138) ^ n := Nat.pow_le_pow_left (by norm_num) n
    _ = 58 ^ (138 * n) := by rw [Nat.pow_mul]
    _ ≤ 58 ^ ((n * 138 / 100 + 1) * 100) := Nat.pow_le_pow_right (by omega) (by omega)
    _ = (58 ^ (n * 138 / 100 + 1)) ^ 100 := by rw [Nat.pow_mul]

theorem toDigits_length_le (s : List Byte) : (toDigits s).length ≤ s.length * 138 / 100 + 1 :=
  (toDigits_isNotation s).length_le (by omega) ((valBE_lt s).trans_le (pow_256_le_pow_58 _))

/-- A digit is worth less than a byte, so `n` digits have at most `n` bytes. -/
theorem fromDigits_length_le {d : List Byte} (h : ∀ x ∈ d, x.toNat ≤ 57) : (fromDigits d).length ≤ d.length := by
  have hlt : valRadix 58 d < 58 ^ d.length := valRadix_lt fun x hx => Nat.lt_succ_of_le (h x hx)
  exact (fromDigits_isNotation d).length_le (by omega) (hlt.trans_le (Nat.pow_le_pow_left (by omega) _))

theorem fromDigits_toDigits (s : List Byte) : fromDigits (toDigits s) = minBE (valBE s) := by
  obtain ⟨-, -, hval⟩ := toDigits_isNotation s
  rw [fromDigits, hval]

theorem minBE_valBE (s : List Byte) : minBE (valBE s) = s.drop (lz s) :=
  radixDigits_valRadix (by omega) fun x _ => x.isLt

theorem toDigits_fromDigits {d : List Byte} (h : ∀ x ∈ d, x.toNat ≤ 57) : toDigits (fromDigits d) = d.drop (lz d) := by
  obtain ⟨-, -, hval⟩ := fromDigits_isNotation d
  rw [toDigits, valBE, hval]
  exact radixDigits_valRadix (by omega) fun x hx => Nat.lt_succ_of_le (h x hx)

/-! The input of a command that fits. -/

/-- The first bad byte of an input that fits has an index below `2^16`, so that `ERR_INFO` holds byte and index apart. -/
theorem State.InputFits.errInfoWord_toNat {s : State} {pre post : List Byte} {x : Byte} (h : s.InputFits)
    (hin : s.inputBytes = pre ++ x :: post) : (errInfoWord pre.length x).toNat = x.toNat * 65536 + pre.length := by
  have hcap := inCap_bounds s.cfg
  have hlen := congrArg List.length hin
  rw [State.inputBytes_length, List.length_append, List.length_cons] at hlen
  exact Machine.errInfoWord_toNat (by omega)

/-! The statements. -/

/-- Settles O41: both directions keep the value, and without its leading zeros a sequence is the only one of its value. -/
theorem converterRoundTrip : Obligations.ConverterRoundTrip := by
  refine ⟨fun s => ⟨fromDigits_toDigits s, minBE_valBE s⟩, fun d => toDigits_fromDigits, fun s => ?_⟩
  rw [List.length_eq_zero_iff]
  exact radixDigits_eq_nil_iff (by omega)

/-- Settles O21: the command's function is `toDigits`, whose digits denote the value and fit the bound. -/
theorem todigResult_spec : Obligations.TodigResult := by
  refine ⟨decodeWord_encode (i := .todig) rfl, fun s hfits => ?_⟩
  have hlen := toDigits_length_le s.inputBytes
  rw [State.inputBytes_length] at hlen
  have hcap := inCap_bounds s.cfg
  obtain ⟨t, ht, hok⟩ := exec_ok (i := .todig) (out := toDigits s.inputBytes) rfl hfits rfl (by omega)
  exact ⟨t, _, ht, hok, toDigits_isNotation _, hlen⟩

/-- Settles O22: the two cases of the digit check, then `fromDigits` gives the minimal bytes within their length. -/
theorem fromdigResult_spec : Obligations.FromdigResult := by
  refine ⟨decodeWord_encode (i := .fromdig) rfl, fun s hfits hdig => ?_, fun s pre post x hfits hin hpre hx => ?_⟩
  · have hlen := fromDigits_length_le hdig
    rw [State.inputBytes_length] at hlen
    have hcap := inCap_bounds s.cfg
    obtain ⟨t, ht, hok⟩ := exec_ok (i := .fromdig) rfl hfits (checkDigits_ok hdig _) (by omega)
    exact ⟨t, _, ht, hok, fromDigits_isNotation _, hlen⟩
  · have hbad : resultOf .fromdig s.inputBytes = .err .digitRange (errInfoWord pre.length x) := by
      rw [hin]
      exact checkDigits_bad hpre hx _
    rw [← hfits.errInfoWord_toNat hin]
    exact exec_err (i := .fromdig) rfl hfits hbad

end Sys2Proof.Machine
end

section
/-! SUPPORT. The alphabet as a table between digits and symbols, and the proofs of the statements about the alphabet
mapper. -/

namespace Sys2Proof.Machine

/-! The symbol of a digit. -/

theorem alphabet_length : alphabet.length = 58 := rfl

/-- On the digits `sym` is the lookup in the alphabet (spec 41_mapper.md R130). -/
theorem alphabet_getElem? {d : Byte} (h : d.toNat ≤ 57) : alphabet[d.toNat]? = some (sym d) := by
  have hlt : d.toNat < alphabet.length := by
    rw [alphabet_length]
    omega
  rw [sym, List.getD_eq_getElem _ _ hlt, List.getElem?_eq_getElem hlt]

/-! The digit of a symbol. -/

/-- The digits of the alphabet's symbols are 0 to 57 in order: the six code ranges of `dig` cover the alphabet without a
gap. -/
theorem alphabet_map_dig : alphabet.map dig = (List.range 58).map fun n => some (BitVec.ofNat 8 n) := by decide

/-- The valid bytes in ascending order are the alphabet. -/
theorem validBytes_eq_alphabet : ((List.range 256).map (BitVec.ofNat 8)).filter validSymbol = alphabet := by decide

theorem dig_sym {d : Byte} (h : d.toNat ≤ 57) : dig (sym d) = some d := by
  have hentry := congrArg (·[d.toNat]?) alphabet_map_dig
  simpa [alphabet_getElem? h, List.getElem?_range (Nat.lt_succ_of_le h)] using hentry

theorem mem_alphabet_of_validSymbol {c : Byte} (h : validSymbol c = true) : c ∈ alphabet := by
  rw [← validBytes_eq_alphabet, List.mem_filter, List.mem_map]
  exact ⟨⟨c.toNat, List.mem_range.mpr c.isLt, by simp⟩, h⟩

/-- A valid byte is the symbol of some digit. -/
theorem exists_sym_eq_of_validSymbol {c : Byte} (h : validSymbol c = true) : ∃ d : Byte, d.toNat ≤ 57 ∧ sym d = c := by
  obtain ⟨n, hn⟩ := List.mem_iff_getElem?.mp (mem_alphabet_of_validSymbol h)
  have hlt : n < 58 := (List.getElem?_eq_some_iff.mp hn).1
  have hd : (BitVec.ofNat 8 n).toNat = n := by
    rw [BitVec.toNat_ofNat]
    omega
  refine ⟨BitVec.ofNat 8 n, by omega, Option.some.inj ?_⟩
  rw [← alphabet_getElem? (by omega), hd, hn]

/-- `sym` undoes `dig` on the valid bytes: each is the symbol of a digit, and `dig` gives that digit back. -/
theorem sym_of_dig {c d : Byte} (h : dig c = some d) : d.toNat ≤ 57 ∧ sym d = c := by
  obtain ⟨d', hd', rfl⟩ := exists_sym_eq_of_validSymbol (c := c) (by rw [validSymbol, h, Option.isSome_some])
  obtain rfl : d' = d := Option.some.inj ((dig_sym hd').symm.trans h)
  exact ⟨hd', rfl⟩

/-- Where the difference of a code and the base of its range does not wrap it is that of the numbers. -/
theorem byte_sub_ofNat {c : Byte} {k : Nat} (h : k ≤ c.toNat) :
    c - BitVec.ofNat 8 k = BitVec.ofNat 8 (c.toNat - k) := by
  have hc := c.isLt
  apply BitVec.eq_of_toNat_eq
  rw [BitVec.toNat_sub, BitVec.toNat_ofNat, BitVec.toNat_ofNat]
  omega

/-! The digits of a valid string. -/

/-- `UNMAP` drops nothing from a valid string: its digits are those of the symbols one by one. -/
theorem map_some_digitsOf {s : List Byte} (h : ∀ c ∈ s, validSymbol c = true) : (digitsOf s).map some = s.map dig := by
  induction s with
  | nil => rfl
  | cons c cs ih =>
    obtain ⟨d, hd⟩ := Option.isSome_iff_exists.mp (h c List.mem_cons_self)
    have htail : (digitsOf cs).map some = cs.map dig := ih fun y hy => h y (List.mem_cons_of_mem c hy)
    rw [digitsOf, List.filterMap_cons_some hd, List.map_cons, List.map_cons, hd, ← htail, digitsOf]

theorem digitsOf_length {s : List Byte} (h : ∀ c ∈ s, validSymbol c = true) : (digitsOf s).length = s.length := by
  simpa using congrArg List.length (map_some_digitsOf h)

theorem digitsOf_getElem? {s : List Byte} (h : ∀ c ∈ s, validSymbol c = true) {i : Nat} {c : Byte}
    (hc : s[i]? = some c) : (digitsOf s)[i]? = dig c := by
  have hentry := congrArg (·[i]?) (map_some_digitsOf h)
  simp only [List.getElem?_map, hc, Option.map_some] at hentry
  obtain ⟨d, hd, hdig⟩ := Option.map_eq_some_iff.mp hentry
  rw [hd, hdig]

/-! A command that stops at a byte of its input. -/

/-- A command whose function reports a byte of its input leaves the byte and its index in `ERR_INFO`. -/
theorem exec_errAt {i : Instr} {s : State} {kind : ErrKind} {pre post : List Byte} {x : Byte} (hi : i.isCommand = true)
    (hfits : s.InputFits) (hin : s.inputBytes = pre ++ x :: post)
    (hr : resultOf i (pre ++ x :: post) = .err kind (errInfoWord pre.length x)) :
    ∃ t, exec i s = .next t ∧ s.CompletedErr t kind (x.toNat * 65536 + pre.length) := by
  rw [← hfits.errInfoWord_toNat hin]
  rw [← hin] at hr
  exact exec_err hi hfits hr

/-! The statements. -/

/-- Settles O34: the string's codes are the table's, and `sym` is the lookup in it. -/
theorem alphabetIsTheStatedString : Obligations.AlphabetIsTheStatedString :=
  ⟨by decide, alphabet_length, fun _ => alphabet_getElem?⟩

/-- Settles O35: a code in one range is outside the others, which decides each condition of `dig`; and the alphabet is the
list of all valid bytes. -/
theorem mapperIsBijective : Obligations.MapperIsBijective := by
  refine ⟨fun d hd => ⟨alphabet_getElem? hd, dig_sym hd⟩, fun c => ?_, fun c d => sym_of_dig, ?_⟩
  · simp only [dig, BitVec.le_def, BitVec.toNat_ofNat, Nat.reducePow, Nat.reduceMod]
    refine ⟨?_, ?_, ?_, ?_, ?_, ?_, ?_⟩ <;> intro h <;> simp (disch := omega) only [if_pos, if_neg, byte_sub_ofNat]
  · rw [validBytes_eq_alphabet, alphabet_length]

/-- Settles O23: the two cases of the digit check, then the symbols one by one. -/
theorem mapResult_spec : Obligations.MapResult := by
  refine ⟨decodeWord_encode (i := .map) rfl, fun s hfits hdig => ?_, fun s pre post x hfits hin hpre hx => ?_⟩
  · have hlen : (s.inputBytes.map sym).length = s.latchedLen.toNat := by rw [List.length_map, State.inputBytes_length]
    obtain ⟨t, ht, hok⟩ := exec_ok (i := .map) rfl hfits (checkDigits_ok hdig _) (hlen ▸ s.latchedLen.isLt)
    refine ⟨t, _, ht, hok, hlen, fun i x hx => ?_⟩
    rw [List.getElem?_map, hx, Option.map_some, alphabet_getElem? (hdig x (List.mem_of_getElem? hx))]
  · exact exec_errAt (i := .map) rfl hfits hin (checkDigits_bad hpre hx _)

/-- Settles O24: the two cases of the validation, then the digits one by one. -/
theorem unmapResult_spec : Obligations.UnmapResult := by
  refine ⟨decodeWord_encode (i := .unmap) rfl, fun s hfits hvalid => ?_, fun s pre post c hfits hin hpre hc => ?_⟩
  · have hlen : (digitsOf s.inputBytes).length = s.latchedLen.toNat := by
      rw [digitsOf_length hvalid, State.inputBytes_length]
    obtain ⟨t, ht, hok⟩ := exec_ok (i := .unmap) rfl hfits (validated_ok hvalid _) (hlen ▸ s.latchedLen.isLt)
    exact ⟨t, _, ht, hok, hlen, fun i c => digitsOf_getElem? hvalid⟩
  · exact exec_errAt (i := .unmap) rfl hfits hin (validated_bad hpre hc _)

end Sys2Proof.Machine
end

section
/-! SUPPORT. A change of radix that keeps leading zeros one to one and is undone by the change back, the Base58 codec as
that change with the alphabet on one side, and the proofs of the statements about the codec and the lengths of results. -/

namespace Sys2Proof.Machine

/-! A change of radix. -/

theorem lz_zeros_append (k : Nat) (s : List Byte) : lz (List.replicate k 0x00#8 ++ s) = k + lz s := by
  rw [lz, leadingRun, List.takeWhile_append_of_pos (fun x hx => by simp [List.eq_of_mem_replicate hx]),
    List.length_append, List.length_replicate]
  rfl

theorem lz_eq_zero {s : List Byte} (h : s.head? ≠ some 0x00#8) : lz s = 0 := leadingRun_replicate 0x00#8 0 h

/-- A sequence in radix `b` rewritten in radix `c`: each leading zero stays one zero, then the digits of the value.
`ENC` is this from bytes to digits, `DEC` from digits to bytes (spec 42_codec.md R150, R152). -/
def rebase (b c : Nat) (s : List Byte) : List Byte :=
  List.replicate (lz s) 0x00#8 ++ radixDigits c (valRadix b s)

theorem rebase_zeros_append (b c k : Nat) (s : List Byte) :
    rebase b c (List.replicate k 0x00#8 ++ s) = List.replicate k 0x00#8 ++ rebase b c s := by
  rw [rebase, lz_zeros_append, valRadix_zeros_append, List.replicate_add, List.append_assoc, rebase]

section
variable {b c : Nat} (hc : 2 ≤ c) (hc' : c ≤ 256) (s : List Byte)
include hc hc'

theorem rebase_lt : ∀ x ∈ rebase b c s, x.toNat < c := by
  obtain ⟨hlt, -, -⟩ := radixDigits_isNotation hc hc' (valRadix b s)
  intro x hx
  rcases List.mem_append.mp hx with hzero | hdigit
  · rw [List.eq_of_mem_replicate hzero, BitVec.toNat_ofNat]
    omega
  · exact hlt x hdigit

theorem lz_rebase : lz (rebase b c s) = lz s := by
  obtain ⟨-, hhead, -⟩ := radixDigits_isNotation hc hc' (valRadix b s)
  exact leadingRun_replicate _ _ hhead

theorem valRadix_rebase : valRadix c (rebase b c s) = valRadix b s := by
  obtain ⟨-, -, hval⟩ := radixDigits_isNotation hc hc' (valRadix b s)
  rw [rebase, valRadix_zeros_append, hval]

/-- The change back undoes a change of radix: it finds the same leading zeros and the same value, and these two fix the
sequence. -/
theorem rebase_rebase (hb : 2 ≤ b) (h : ∀ x ∈ s, x.toNat < b) : rebase c b (rebase b c s) = s := by
  rw [rebase, lz_rebase hc hc', valRadix_rebase hc hc', radixDigits_valRadix hb h]
  exact (leadingRun_split 0x00#8 s).1.symm

end

/-- Each leading zero counts one, and the rest counts as many digits as its value has. -/
theorem rebase_length {b : Nat} (c : Nat) {s : List Byte} (h : ∀ x ∈ s, x.toNat < b) :
    (rebase b c s).length = lz s + (radixDigits c (valRadix b (s.drop (lz s)))).length := by
  obtain ⟨-, -, hval⟩ := drop_lz_isNotation h
  rw [rebase, hval, List.length_append, List.length_replicate]

theorem lz_add_drop_length (s : List Byte) : lz s + (s.drop (lz s)).length = s.length := by
  have hlen := congrArg List.length (leadingRun_split 0x00#8 s).1
  rw [List.length_append, List.length_replicate] at hlen
  exact hlen.symm

/-! The symbols of a digit sequence. -/

theorem validSymbol_sym {d : Byte} (h : d.toNat ≤ 57) : validSymbol (sym d) = true := by
  rw [validSymbol, dig_sym h, Option.isSome_some]

/-- The zero symbol is the symbol of no digit but 0. -/
theorem sym_eq_zeroSymbol_iff {d : Byte} (h : d.toNat ≤ 57) : sym d = 0x31#8 ↔ d = 0x00#8 := by
  refine ⟨fun hsym => ?_, fun hd => hd ▸ rfl⟩
  have hdig := dig_sym h
  rw [hsym] at hdig
  exact (Option.some.inj hdig).symm

theorem map_sym_head?_ne {d : List Byte} (h : ∀ x ∈ d, x.toNat ≤ 57) (hhead : d.head? ≠ some 0x00#8) :
    (d.map sym).head? ≠ some 0x31#8 := by
  rw [List.head?_map]
  intro hone
  obtain ⟨x, hx, hxone⟩ := Option.map_eq_some_iff.mp hone
  have hzero : x = 0x00#8 := (sym_eq_zeroSymbol_iff (h x (List.mem_of_mem_head? hx))).mp hxone
  exact hhead (hzero ▸ hx)

theorem digitsOf_map_sym {d : List Byte} (h : ∀ x ∈ d, x.toNat ≤ 57) : digitsOf (d.map sym) = d := by
  induction d with
  | nil => rfl
  | cons x xs ih =>
    obtain ⟨hx, hxs⟩ := List.forall_mem_cons.mp h
    rw [List.map_cons, digitsOf, List.filterMap_cons_some (dig_sym hx)]
    exact congrArg (x :: ·) (ih hxs)

theorem digitsOf_le (s : List Byte) : ∀ x ∈ digitsOf s, x.toNat ≤ 57 := by
  intro x hx
  obtain ⟨c, -, hdig⟩ := List.mem_filterMap.mp hx
  exact (sym_of_dig hdig).1

theorem map_sym_digitsOf {s : List Byte} (h : ∀ c ∈ s, validSymbol c = true) : (digitsOf s).map sym = s := by
  induction s with
  | nil => rfl
  | cons c cs ih =>
    obtain ⟨hc, hcs⟩ := List.forall_mem_cons.mp h
    obtain ⟨d, hd⟩ := Option.isSome_iff_exists.mp hc
    rw [digitsOf, List.filterMap_cons_some hd, List.map_cons, (sym_of_dig hd).2]
    exact congrArg (c :: ·) (ih hcs)

/-- The leading run of zero symbols is that of the zero digits (spec 42_codec.md R153). -/
theorem lzsym_map_sym {d : List Byte} (h : ∀ x ∈ d, x.toNat ≤ 57) : lzsym (d.map sym) = lz d := by
  obtain ⟨hsplit, hhead⟩ := leadingRun_split 0x00#8 d
  have hsym : d.map sym = List.replicate (lz d) 0x31#8 ++ (d.drop (lz d)).map sym := by
    conv_lhs => rw [hsplit, List.map_append, List.map_replicate]
    rfl
  rw [hsym]
  exact leadingRun_replicate _ _ (map_sym_head?_ne (fun x hx => h x (List.mem_of_mem_drop hx)) hhead)

/-! The codec as a change of radix. -/

theorem encodeString_eq (inb : List Byte) : encodeString inb = (rebase 256 58 inb).map sym := by
  rw [rebase, List.map_append, List.map_replicate]
  rfl

theorem rebase_58_le (inb : List Byte) : ∀ x ∈ rebase 256 58 inb, x.toNat ≤ 57 :=
  fun x hx => Nat.le_of_lt_succ (rebase_lt (by omega) (by omega) inb x hx)

theorem decodeString_map_sym {d : List Byte} (h : ∀ x ∈ d, x.toNat ≤ 57) :
    decodeString (d.map sym) = rebase 58 256 d := by
  rw [decodeString, lzsym_map_sym h, digitsOf_map_sym h, rebase, fromDigits, minBE]

theorem decodeString_eq {s : List Byte} (h : ∀ c ∈ s, validSymbol c = true) :
    decodeString s = rebase 58 256 (digitsOf s) := by
  conv_lhs => rw [← map_sym_digitsOf h]
  exact decodeString_map_sym (digitsOf_le s)

theorem encodeString_valid (inb : List Byte) : ∀ c ∈ encodeString inb, validSymbol c = true := by
  intro c hc
  rw [encodeString_eq] at hc
  obtain ⟨d, hd, rfl⟩ := List.mem_map.mp hc
  exact validSymbol_sym (rebase_58_le inb d hd)

theorem decodeString_encodeString (inb : List Byte) : decodeString (encodeString inb) = inb := by
  rw [encodeString_eq, decodeString_map_sym (rebase_58_le inb)]
  exact rebase_rebase (by omega) (by omega) inb (by omega) fun x _ => x.isLt

theorem encodeString_decodeString {s : List Byte} (h : ∀ c ∈ s, validSymbol c = true) :
    encodeString (decodeString s) = s := by
  rw [encodeString_eq, decodeString_eq h,
    rebase_rebase (by omega) (by omega) _ (by omega) fun x hx => Nat.lt_succ_of_le (digitsOf_le _ x hx),
    map_sym_digitsOf h]

/-! The checks, read backwards. -/

theorem firstBad_eq_none {good : Byte → Bool} {s : List Byte} :
    ∀ {i : Nat}, firstBad good i s = none → ∀ x ∈ s, good x = true := by
  induction s with
  | nil => simp
  | cons x xs ih =>
    intro i h
    rw [firstBad] at h
    split at h
    case isTrue hx => exact List.forall_mem_cons.mpr ⟨hx, ih h⟩
    case isFalse => cases h

theorem validated_eq_ok {s out : List Byte} {r : Result} (h : validated s r = .ok out) :
    (∀ c ∈ s, validSymbol c = true) ∧ r = .ok out := by
  unfold validated at h
  split at h
  · cases h
  · exact ⟨firstBad_eq_none ‹_›, h⟩

theorem checkDigits_eq_ok {s out : List Byte} {r : Result} (h : checkDigits s r = .ok out) :
    (∀ x ∈ s, x.toNat ≤ 57) ∧ r = .ok out := by
  unfold checkDigits at h
  split at h
  · cases h
  · exact ⟨fun x hx => of_decide_eq_true (firstBad_eq_none ‹_› x hx), h⟩

/-- `DEC` succeeds on the valid strings and on no other (spec 42_codec.md R152). -/
theorem decResult_eq_ok_iff {s out : List Byte} :
    decResult s = .ok out ↔ (∀ c ∈ s, validSymbol c = true) ∧ decodeString s = out := by
  refine ⟨fun h => ?_, fun ⟨hvalid, hout⟩ => ?_⟩
  · obtain ⟨hvalid, hout⟩ := validated_eq_ok h
    exact ⟨hvalid, Result.ok.inj hout⟩
  · rw [decResult, validated_ok hvalid, hout]

/-! The lengths of results. -/

/-- A leading zero byte costs one symbol, within the share of the bound that a byte has. -/
theorem encodeString_length_le (inb : List Byte) : (encodeString inb).length ≤ inb.length * 138 / 100 + 1 := by
  have hlen : (encodeString inb).length = lz inb + (toDigits (inb.drop (lz inb))).length := by
    rw [encodeString_eq, List.length_map]
    exact rebase_length 58 fun x _ => x.isLt
  have hrest := toDigits_length_le (inb.drop (lz inb))
  have hsum := lz_add_drop_length inb
  omega

theorem decodeString_length_le {s : List Byte} (h : ∀ c ∈ s, validSymbol c = true) :
    (decodeString s).length ≤ s.length := by
  have hlen : (decodeString s).length
      = lz (digitsOf s) + (fromDigits ((digitsOf s).drop (lz (digitsOf s)))).length := by
    rw [decodeString_eq h]
    exact rebase_length 256 fun x hx => Nat.lt_succ_of_le (digitsOf_le _ x hx)
  have hrest := fromDigits_length_le fun x hx => digitsOf_le s x (List.mem_of_mem_drop (i := lz (digitsOf s)) hx)
  have hsum := lz_add_drop_length (digitsOf s)
  rw [digitsOf_length h] at hsum
  omega

theorem encResult_length_le {inb out : List Byte} (h : encResult inb = .ok out) :
    out.length ≤ inb.length * 138 / 100 + 1 := by
  cases h
  exact encodeString_length_le inb

theorem decResult_length_le {inb out : List Byte} (h : decResult inb = .ok out) : out.length ≤ inb.length := by
  obtain ⟨hvalid, rfl⟩ := decResult_eq_ok_iff.mp h
  exact decodeString_length_le hvalid

theorem fromdigResult_length_le {inb out : List Byte} (h : fromdigResult inb = .ok out) : out.length ≤ inb.length := by
  obtain ⟨hdig, hout⟩ := checkDigits_eq_ok h
  cases hout
  exact fromDigits_length_le hdig

theorem mapResult_length {inb out : List Byte} (h : mapResult inb = .ok out) : out.length = inb.length := by
  obtain ⟨-, hout⟩ := checkDigits_eq_ok h
  cases hout
  exact List.length_map sym

theorem unmapResult_length {inb out : List Byte} (h : unmapResult inb = .ok out) : out.length = inb.length := by
  obtain ⟨hvalid, hout⟩ := validated_eq_ok h
  cases hout
  exact digitsOf_length hvalid

theorem checksum_length (p : List Byte) : (checksum p).length = 4 := by
  rw [checksum, hashBytes, List.length_take, Vector.length_toList]
  rfl

theorem frameOf_length (p : List Byte) : (frameOf p).length = p.length + 4 := by
  rw [frameOf, List.length_append, checksum_length]

theorem unframe_length_le {f out : List Byte} (h : unframe f = .ok out) : out.length ≤ f.length := by
  unfold unframe at h
  split at h
  · cases h
  · dsimp only at h
    split at h
    · cases h
      exact List.length_take_le' _ f
    · cases h

theorem cencResult_length_le {inb out : List Byte} (h : cencResult inb = .ok out) :
    out.length ≤ (inb.length + 4) * 138 / 100 + 1 := by
  rw [← frameOf_length]
  exact encResult_length_le h

theorem cdecResult_length_le {inb out : List Byte} (h : cdecResult inb = .ok out) : out.length ≤ inb.length := by
  unfold cdecResult at h
  split at h
  case h_1 f hdec => exact (unframe_length_le h).trans (decResult_length_le hdec)
  case h_2 => cases h

/-- `CENC` has the longest result: no command gives more bytes than its bound (spec 42_codec.md R156). -/
theorem resultOf_length_le {i : Instr} {inb out : List Byte} (h : resultOf i inb = .ok out) :
    out.length ≤ (inb.length + 4) * 138 / 100 + 1 := by
  suffices hcase : out.length ≤ inb.length + 4 ∨ out.length ≤ inb.length * 138 / 100 + 1 ∨
      out.length ≤ (inb.length + 4) * 138 / 100 + 1 by omega
  cases i with
  | enc => exact .inr (.inl (encResult_length_le h))
  | dec => exact .inl (Nat.le_add_right_of_le (decResult_length_le h))
  | cenc => exact .inr (.inr (cencResult_length_le h))
  | cdec => exact .inl (Nat.le_add_right_of_le (cdecResult_length_le h))
  | todig =>
    cases h
    exact .inr (.inl (toDigits_length_le inb))
  | fromdig => exact .inl (Nat.le_add_right_of_le (fromdigResult_length_le h))
  | map => exact .inl (Nat.le_add_right_of_le (mapResult_length h).le)
  | unmap => exact .inl (Nat.le_add_right_of_le (unmapResult_length h).le)
  | csum =>
    cases h
    exact .inl ((checksum_length inb).trans_le (Nat.le_add_left 4 _))
  | frame =>
    cases h
    exact .inl (frameOf_length inb).le
  | unframe => exact .inl (Nat.le_add_right_of_le (unframe_length_le h))
  | illegal w => cases h

/-- `OUT_LEN` after a complete step: the length of the result of a command whose input fits, or 0. -/
theorem exec_outLen {i : Instr} {s t : State} (h : exec i s = .next t) : t.outLen = 0#32 ∨
    ∃ out, s.InputFits ∧ resultOf i s.inputBytes = .ok out ∧ t.outLen = BitVec.ofNat 32 out.length := by
  by_cases hi : i.isCommand = true
  · rw [exec_command hi] at h
    by_cases hfits : s.InputFits
    · rw [runCommand_fits hfits] at h
      cases h
      cases hr : resultOf i s.inputBytes with
      | ok out => exact .inr ⟨out, hfits, rfl, rfl⟩
      | err kind info => exact .inl rfl
    · rw [runCommand_overlong (Nat.lt_of_not_le hfits)] at h
      cases h
      exact .inl rfl
  · cases i with
    | illegal w =>
      cases h
      exact .inl rfl
    | _ => exact absurd rfl hi

/-- `OUT_CAP` is the bound of `CENC` at the largest input, so it bounds the result of every command. -/
theorem exec_outLen_le {i : Instr} {s t : State} (h : exec i s = .next t) : t.outLen.toNat ≤ s.cfg.outCap := by
  rcases exec_outLen h with hzero | ⟨out, hfits, hr, hlen⟩
  · rw [hzero]
    exact Nat.zero_le _
  · have hout := resultOf_length_le hr
    rw [State.inputBytes_length] at hout
    rw [hlen, BitVec.toNat_ofNat, Config.outCap, roundup4, encodingBound]
    omega

/-! The statements. -/

/-- Settles O25: the command's function is `encodeString`, whose digits denote the value and whose length fits the
bound. -/
theorem encResult_spec : Obligations.EncResult := by
  refine ⟨decodeWord_encode (i := .enc) rfl, fun s hfits => ?_⟩
  have hlen := encodeString_length_le s.inputBytes
  rw [State.inputBytes_length] at hlen
  have hcap := inCap_bounds s.cfg
  obtain ⟨t, ht, hok⟩ := exec_ok (i := .enc) (out := encodeString s.inputBytes) rfl hfits rfl (by omega)
  exact ⟨t, _, ht, toDigits_isNotation _, hok, hok.outLen.trans_le hlen⟩

/-- Settles O26: the two cases of the validation, then `decodeString` on the digits of a valid string. -/
theorem decResult_spec : Obligations.DecResult := by
  refine ⟨decodeWord_encode (i := .dec) rfl, fun s hfits hvalid => ?_, fun s pre post c hfits hin hpre hc => ?_⟩
  · have hlen := decodeString_length_le hvalid
    rw [State.inputBytes_length] at hlen
    obtain ⟨t, ht, hok⟩ := exec_ok (i := .dec) rfl hfits (validated_ok hvalid _) (hlen.trans_lt s.latchedLen.isLt)
    exact ⟨t, _, ht, fromDigits_isNotation _, hok, hok.outLen.trans_le hlen⟩
  · exact exec_errAt (i := .dec) rfl hfits hin (validated_bad hpre hc _)

/-- Settles O36: a change of radix keeps leading zeros, and the digits of the rest do not start with 0, whose symbol
alone is `'1'`. -/
theorem encodeKeepsLeadingZeros : Obligations.EncodeKeepsLeadingZeros := by
  intro k b hb
  refine ⟨encodeString b, rfl, ?_, ?_⟩
  · obtain ⟨hlt, hhead, -⟩ := toDigits_isNotation b
    rw [encodeString, lz_eq_zero hb, List.replicate_zero, List.nil_append]
    exact map_sym_head?_ne (fun x hx => Nat.le_of_lt_succ (hlt x hx)) hhead
  · rw [encResult, encodeString_eq, rebase_zeros_append, List.map_append, List.map_replicate, encodeString_eq]
    rfl

/-- Settles O37: an encoding is a valid string, and the change of radix back gives the bytes. -/
theorem decodeUndoesEncode : Obligations.DecodeUndoesEncode := by
  intro b out h
  cases h
  exact decResult_eq_ok_iff.mpr ⟨encodeString_valid b, decodeString_encodeString b⟩

/-- Settles O38: encoding undoes decoding on the valid strings, so a string that decodes to `b` is the encoding of `b`. -/
theorem encodeUndoesDecode : Obligations.EncodeUndoesDecode := by
  refine ⟨fun s hvalid => ⟨decodeString s, validated_ok hvalid _, ?_⟩, fun b => ?_⟩
  · rw [encResult, encodeString_decodeString hvalid]
  · refine ⟨encodeString b, encodeString_valid b, decodeUndoesEncode b _ rfl, fun s' hdec => ?_⟩
    obtain ⟨hvalid, rfl⟩ := decResult_eq_ok_iff.mp hdec
    exact (encodeString_decodeString hvalid).symm

/-- Settles O42: the lengths of the digits, the encodings and the complete step's result, each by its bound. -/
theorem encodingFitsItsBound : Obligations.EncodingFitsItsBound :=
  ⟨toDigits_length_le, fun _ _ => encResult_length_le, fun _ _ => cencResult_length_le, fun _ _ _ => exec_outLen_le⟩

/-- Settles O43: a decoding and a digit conversion each have the input's length as their bound. -/
theorem decodingIsNoLonger : Obligations.DecodingIsNoLonger := by
  rintro inb out (hdec | hfromdig)
  · exact decResult_length_le hdec
  · exact fromdigResult_length_le hfromdig

end Sys2Proof.Machine
end

section
/-! SUPPORT. Verifying a frame as a case split on its last 4 bytes, `CDEC` as `DEC` and that, and the proofs of the
statements about the checksum framer and Base58Check. -/

namespace Sys2Proof.Machine

/-! Verifying a frame. -/

theorem unframe_short {f : List Byte} (h : f.length < 4) :
    unframe f = .err .tooShort (errInfoWord f.length 0x00#8) := if_pos h

/-- The cut of `unframe` 4 bytes before the end gives back the two parts (spec 43_check.md R173). -/
theorem unframe_append (payload : List Byte) {claimed : List Byte} (h : claimed.length = 4) :
    unframe (payload ++ claimed) =
      if claimed = checksum payload then .ok payload else .err .checksumMismatch 0#32 := by
  have hcut : (payload ++ claimed).length - 4 = payload.length := by rw [List.length_append, h, Nat.add_sub_cancel]
  have hlong : ¬(payload ++ claimed).length < 4 := by
    rw [List.length_append, h]
    omega
  rw [unframe, if_neg hlong, hcut, List.take_left, List.drop_left]

theorem unframe_frameOf (payload : List Byte) : unframe (frameOf payload) = .ok payload := by
  rw [frameOf, unframe_append payload (checksum_length payload), if_pos rfl]

/-! `CDEC` by the outcome of the decoding. -/

theorem cdecResult_of_ok {inb f : List Byte} (h : decResult inb = .ok f) : cdecResult inb = unframe f := by
  rw [cdecResult, h]

theorem cdecResult_of_err {inb : List Byte} {kind : ErrKind} {info : Word} (h : decResult inb = .err kind info) :
    cdecResult inb = .err kind info := by
  rw [cdecResult, h]

/-! The complete step of a command that frames or verifies. -/

/-- A result is no longer than the encoding of `IN_CAP + 4` bytes, so `OUT_LEN` holds its length. -/
theorem exec_ok_of_inputFits {i : Instr} {s : State} {out : List Byte} (hi : i.isCommand = true) (hfits : s.InputFits)
    (hr : resultOf i s.inputBytes = .ok out) : ∃ t, exec i s = .next t ∧ s.CompletedOk t out := by
  have hlen := resultOf_length_le hr
  rw [State.inputBytes_length] at hlen
  have hcap := inCap_bounds s.cfg
  exact exec_ok hi hfits hr (by omega)

section
variable {i : Instr} {s : State} (hi : i.isCommand = true) (hfits : s.InputFits)
include hi hfits

/-- `UNFRAME` and `CDEC` on fewer than 4 bytes: `ERR_INFO` is their number, with no byte in its upper half. -/
theorem exec_unframe_short {f : List Byte} (hr : resultOf i s.inputBytes = unframe f) (h : f.length < 4) :
    ∃ t, exec i s = .next t ∧ s.CompletedErr t .tooShort f.length := by
  have hinfo : (errInfoWord f.length 0x00#8).toNat = f.length := by
    rw [errInfoWord_toNat (by omega), BitVec.toNat_ofNat, Nat.zero_mod, Nat.zero_mul, Nat.zero_add]
  obtain ⟨t, ht, herr⟩ := exec_err hi hfits (hr.trans (unframe_short h))
  exact ⟨t, ht, hinfo ▸ herr⟩

/-- `UNFRAME` and `CDEC` on a payload and 4 bytes: the 4 bytes are its checksum or they are not. -/
theorem exec_unframe_append {payload claimed : List Byte} (hr : resultOf i s.inputBytes = unframe (payload ++ claimed))
    (h : claimed.length = 4) :
    (claimed = checksum payload → ∃ t, exec i s = .next t ∧ s.CompletedOk t payload) ∧
    (claimed ≠ checksum payload → ∃ t, exec i s = .next t ∧ s.CompletedErr t .checksumMismatch 0) := by
  rw [unframe_append payload h] at hr
  refine ⟨fun heq => ?_, fun hne => ?_⟩
  · rw [if_pos heq] at hr
    exact exec_ok_of_inputFits hi hfits hr
  · rw [if_neg hne] at hr
    exact exec_err hi hfits hr

end

/-! The statements. -/

/-- Settles O29: the input is too short, or its last 4 bytes are the checksum of the rest or not. -/
theorem unframeResult_spec : Obligations.UnframeResult := by
  refine ⟨decodeWord_encode (i := .unframe) rfl, fun s hfits hlen => ?_, fun s payload claimed hfits hin h4 => ?_⟩
  · rw [← State.inputBytes_length] at hlen ⊢
    exact exec_unframe_short (i := .unframe) rfl hfits rfl hlen
  · exact exec_unframe_append (i := .unframe) rfl hfits (congrArg unframe hin) h4

/-- Settles O30: `ENC` of the frame, which is 4 bytes longer than the input; `OUT_CAP` is the bound of the longest. -/
theorem cencResult_spec : Obligations.CencResult := by
  refine ⟨decodeWord_encode (i := .cenc) rfl, fun s f hfits hf => ?_⟩
  have hlen : (encodeString f).length ≤ (s.latchedLen.toNat + 4) * 138 / 100 + 1 := by
    rw [← State.inputBytes_length, ← frameOf_length]
    exact hf ▸ encodeString_length_le (frameOf s.inputBytes)
  have hbound : (s.latchedLen.toNat + 4) * 138 / 100 + 1 ≤ s.cfg.outCap := by
    rw [Config.outCap, roundup4, encodingBound]
    omega
  have hr : resultOf .cenc s.inputBytes = .ok (encodeString f) := by
    rw [hf]
    rfl
  obtain ⟨t, ht, hok⟩ := exec_ok_of_inputFits rfl hfits hr
  exact ⟨t, _, ht, toDigits_isNotation f, hok, hok.outLen.trans_le hlen, hbound⟩

/-- Settles O31: the error of the decoding, or the decoded bytes, the only ones with that value and those leading zeros,
verified as a frame. -/
theorem cdecResult_spec : Obligations.CdecResult := by
  refine ⟨decodeWord_encode (i := .cdec) rfl, fun s pre post c hfits hin hpre hc => ?_,
    fun s raw f hfits hvalid hraw hf => ?_⟩
  · exact exec_errAt (i := .cdec) rfl hfits hin (cdecResult_of_err (validated_bad hpre hc _))
  · have hdecode : decodeString s.inputBytes = f := by
      rw [hf, hraw.eq_radixDigits (by omega)]
      rfl
    have hr : resultOf .cdec s.inputBytes = unframe f :=
      cdecResult_of_ok (decResult_eq_ok_iff.mpr ⟨hvalid, hdecode⟩)
    exact ⟨exec_unframe_short rfl hfits hr, fun _ _ hsplit => exec_unframe_append rfl hfits (hsplit ▸ hr)⟩

/-- Settles O40: the two outcomes of the decoding; a decoded encoding of a frame is that frame, which verifies. -/
theorem checkDecodeUndoesCheckEncode : Obligations.CheckDecodeUndoesCheckEncode := by
  refine ⟨fun s => ⟨fun kind info => cdecResult_of_err, fun f => cdecResult_of_ok⟩, fun p out henc => ?_⟩
  have hdec : decResult out = .ok (frameOf p) := decodeUndoesEncode (frameOf p) out henc
  rw [cdecResult_of_ok hdec, unframe_frameOf]

/-- Settles O27: the command's function is `checksum`, 4 bytes of any input. -/
theorem csumResult_spec : Obligations.CsumResult := by
  refine ⟨decodeWord_encode (i := .csum) rfl, fun s hfits => ?_⟩
  obtain ⟨t, ht, hok⟩ := exec_ok_of_inputFits (i := .csum) rfl hfits rfl
  exact ⟨t, ht, BitVec.eq_of_toNat_eq (hok.outLen.trans (checksum_length s.inputBytes)), hok⟩

/-- Settles O28: the command's function is `frameOf`, 4 bytes longer than its input. -/
theorem frameResult_spec : Obligations.FrameResult := by
  refine ⟨decodeWord_encode (i := .frame) rfl, fun s hfits => ?_⟩
  obtain ⟨t, ht, hok⟩ := exec_ok_of_inputFits (i := .frame) rfl hfits rfl
  have hlen := frameOf_length s.inputBytes
  rw [State.inputBytes_length] at hlen
  exact ⟨t, ht, hok.outLen.trans hlen, hok⟩

/-- Settles O39: the frame of a payload verifies, and the cut gives the payload. -/
theorem unframeUndoesFrame : Obligations.UnframeUndoesFrame := by
  intro p out h
  cases h
  exact unframe_frameOf p

end Sys2Proof.Machine
end

section
/-! SUPPORT. The write of `CMD` that an idle block accepts, and the proof of the statement about it. -/

namespace Sys2Proof.Machine

/-- The step of a `CMD` write while idle is the accept step (spec 60_exceptions.md R201). -/
theorem step_writeCmd_idle {s : State} {rest : List Event} {v : Nat} (hr : s.rstN = true) (hidle : s.busy = false)
    (hp : s.port = .busWrite (s.cfg.base + 0x00C) 4 v :: rest) :
    step s = accept (BitVec.ofNat 32 v) { s with reply := none, port := rest } :=
  (step_writeReg .cmd hr hp).trans (writeReg_cmd_idle _ hidle)

/-- Settles O17: the step is an accept, whose two outcomes `acceptFaults_iff` tells apart; that test reads neither the
port nor the last reply, and the other outcome is the accepted state. -/
theorem commandWriteAccepts : Obligations.CommandWriteAccepts := by
  intro s rest v hr hidle hp
  have hfaults := State.acceptFaults_iff { s with reply := none, port := rest } (BitVec.ofNat 32 v)
  rw [step_writeCmd_idle hr hidle hp, accept_eq]
  exact ⟨fun hunwritten => if_pos (hfaults.mpr hunwritten), fun hother => if_neg (mt hfaults.mp hother)⟩

end Sys2Proof.Machine
end

section
/-! SUPPORT. The soft reset and the protection of a busy block, and the proofs of the statements about them. -/

namespace Sys2Proof.Machine

/-! The step of each write that acts. -/

/-- With bit 1 of the data set, the step of a `CTRL` write is the soft reset (spec 70_reset_and_hazards.md R232). -/
theorem step_writeCtrl_reset {s : State} {rest : List Event} {v : Nat} (hr : s.rstN = true)
    (hp : s.port = .busWrite (s.cfg.base + 0x008) 4 v :: rest) (hv : v / 2 % 2 = 1) :
    step s = .next (State.softReset { s with reply := none, port := rest }) := by
  have hbit : (BitVec.ofNat 32 v).getLsbD 1 = true := by rw [ofNat_bit1, hv, decide_eq_true rfl]
  exact (step_writeReg .ctrl hr hp).trans (congrArg Host.Outcome.next (State.writeCtrl_reset _ hbit))

/-- A write of `STATUS` clears `DONE` with bit 1 of the data and `WBUSY` with bit 3 (spec 10_state.md R27). -/
theorem State.writeStatus_ofNat (s : State) (v : Nat) : s.writeStatus (BitVec.ofNat 32 v) =
    { s with
      done := s.done && decide (v / 2 % 2 = 0)
      wbusy := s.wbusy && decide (v / 8 % 2 = 0) } := by
  rw [State.writeStatus, ofNat_bit1, ofNat_bit3, not_decide_bit, not_decide_bit]

/-- The step of an admitted write of the input window, busy or not (spec 20_memory.md R69). -/
theorem step_writeInput {s : State} {rest : List Event} {o w v : Nat} (hr : s.rstN = true)
    (hp : s.port = .busWrite (s.cfg.base + o) w v :: rest) (ha : AdmittedBuffer 0x1000 s.cfg.inCap o w) :
    step s = .next (State.writeInput { s with reply := none, port := rest } (o - 0x1000) (laneBytes w v)) := by
  obtain ⟨hw, halign, hlow, hhigh⟩ := ha
  rw [step_cons hp]
  exact busWrite_input (s := { s with port := rest }) v hr hw halign hlow hhigh

/-! The writes that a busy block ignores. -/

theorem State.writeInLen_busy {s : State} (v : Word) (h : s.busy = true) : s.writeInLen v = s.ignoredWhileBusy :=
  if_pos h

theorem State.writeInput_busy {s : State} (i : Nat) (bytes : List Byte) (h : s.busy = true) :
    s.writeInput i bytes = s.ignoredWhileBusy :=
  if_pos h

/-- While busy, the step of an admitted write of `CMD`, `IN_LEN` or the `IN` window sets `WBUSY` and nothing else
(spec 70_reset_and_hazards.md R240). -/
theorem step_ignoredWhileBusy {s : State} {rest : List Event} {o w v : Nat} (hr : s.rstN = true) (hb : s.busy = true)
    (hp : s.port = .busWrite (s.cfg.base + o) w v :: rest)
    (ho : (w = 4 ∧ (o = 0x00C ∨ o = 0x014)) ∨ AdmittedBuffer 0x1000 s.cfg.inCap o w) :
    step s = .next (State.ignoredWhileBusy { s with reply := none, port := rest }) := by
  rcases ho with ⟨rfl, rfl | rfl⟩ | hin
  · exact (step_writeReg .cmd hr hp).trans (writeReg_cmd_busy _ hb)
  · exact (step_writeReg .inLen hr hp).trans (congrArg Host.Outcome.next (State.writeInLen_busy _ hb))
  · exact (step_writeInput hr hp hin).trans (congrArg Host.Outcome.next (State.writeInput_busy _ _ hb))

/-! The statements. -/

/-- Settles O7: the step is the soft reset, whatever `BUSY` was, and each conjunct is one field of what it leaves. -/
theorem softResetAbandonsAndClears : Obligations.SoftResetAbandonsAndClears := by
  intro s rest v hr hp hv
  refine ⟨_, step_writeCtrl_reset hr hp hv, ?_⟩
  simp [State.readReg]

/-- Settles O18: the writes of `CMD`, `IN_LEN` and `IN` are ignored; those of `CTRL`, `STATUS` and the read-only
registers do what they do in an idle block, as their own rules say. -/
theorem busyBlockIgnoresWrites : Obligations.BusyBlockIgnoresWrites := by
  intro s rest o w v hr hb hp
  refine ⟨fun ho => step_ignoredWhileBusy hr hb hp ho, ?_, ?_, ?_, ?_⟩
  · rintro rfl rfl hv
    obtain ⟨hset, -⟩ := controlRegisterRule.2 s rest v hr hp
    exact hset hv
  · rintro rfl rfl hv
    exact ⟨_, step_writeCtrl_reset hr hp hv, State.softReset_busy _, State.softReset_wbusy _⟩
  · rintro rfl rfl
    exact (step_writeReg .status hr hp).trans (congrArg Host.Outcome.next (State.writeStatus_ofNat _ v))
  · rintro rfl ho
    obtain ⟨hreadOnly, -⟩ := readOnlyAndReservedBits
    exact hreadOnly s rest o v hr hp ho

end Sys2Proof.Machine
end

section
/-! SUPPORT. The proofs of the statements that the decoder and the encoder undo each other. -/

namespace Sys2Proof

/-- The decoder undoes the encoder on every well-formed instruction: the illegal row holds no command's word, so its word
stays in the illegal row (spec 30_encoding.md R96). -/
theorem decodeWord_encode_of_wellFormed {i : Instr} (h : i.wellFormed = true) : decodeWord (encode i) = i := by
  cases i with
  | illegal w =>
    have hnot : isCommandWord w = false := by simpa [Instr.wellFormed] using h
    by_cases hr : rsvField w = 0
    · by_cases hop : 0x1 ≤ (opField w).toNat ∧ (opField w).toNat ≤ 0xB
      · have hcmd := Laws.OpcodeField.isCommandWord_of_fields hr hop.1 hop.2
        exact absurd hcmd (Bool.eq_false_iff.mp hnot)
      · exact decodeWord_of_reservedOp (by rw [encode]; omega)
    · exact decodeWord_of_rsv hr
  | _ => rfl

/-- A command's word is no term of the illegal row. -/
theorem wellFormed_decodeWord (w : Word) : (decodeWord w).wellFormed = true := by
  cases hd : decodeWord w with
  | illegal v =>
    have hv : v = w := by
      have hw := encode_decodeWord w
      rwa [hd] at hw
    have hnot : ¬isCommandWord w = true := by
      rw [isCommandWord_iff]
      rintro ⟨i, hi, rfl⟩
      rw [decodeWord_encode hi] at hd
      rw [hd] at hi
      exact absurd hi (by simp [Instr.isCommand])
    simp [Instr.wellFormed, hv, hnot]
  | _ => rfl

/-- Settles O1: the lanes of a word decode to the word's instruction, and the decoder undoes the encoder. -/
theorem decodeEncodeRoundTrip : Obligations.DecodeEncodeRoundTrip := by
  intro i rest h
  rw [encodeBytes, decodeBytes_lanesOfWord, decodeWord_encode_of_wellFormed h]

/-- Settles O2: the decoder answers no ill-formed term, and the encoder undoes it. -/
theorem encodeDecodeRoundTrip : Obligations.EncodeDecodeRoundTrip :=
  fun w => ⟨wellFormed_decodeWord w, encode_decodeWord w⟩

/-- Settles O4: the five words of commands, 0 and the word with a reserved bit set, by the decoder's cases. -/
theorem writtenOutWordsDecode : Obligations.WrittenOutWordsDecode :=
  ⟨decodeWord_encode (i := .enc) rfl, decodeWord_encode (i := .fromdig) rfl, decodeWord_encode (i := .unmap) rfl,
    decodeWord_encode (i := .cdec) rfl, decodeWord_encode (i := .unframe) rfl,
    decodeWord_of_reservedOp (.inl rfl), decodeWord_of_rsv (by decide)⟩

end Sys2Proof
end

section
/-! SUPPORT. What keeps the invariant of the block: the bounds of a command's result, the update of each part of the
state, and the proofs of the statements about the invariant. -/

namespace Sys2Proof.Machine

/-! The bound of `ERR_INFO`. -/

theorem firstBad_index_lt {good : Byte → Bool} {s : List Byte} :
    ∀ {i j : Nat} {x : Byte}, firstBad good i s = some (j, x) → j < i + s.length := by
  induction s with
  | nil => intro i j x h; cases h
  | cons y ys ih =>
    intro i j x h
    rw [firstBad] at h
    rw [List.length_cons]
    split at h
    · have := ih h
      omega
    · cases h
      omega

/-- `ERR_INFO` holds a byte and an index below `2^16` (spec 60_exceptions.md R204). -/
theorem errInfoWord_lt {i : Nat} {x : Byte} (h : i < 65536) : (errInfoWord i x).toNat < 2 ^ 24 := by
  have := x.isLt
  rw [errInfoWord_toNat h]
  omega

theorem firstBad_info_lt {good : Byte → Bool} {inb : List Byte} {i : Nat} {x : Byte} (hlen : inb.length < 65536)
    (h : firstBad good 0 inb = some (i, x)) : (errInfoWord i x).toNat < 2 ^ 24 := by
  have := firstBad_index_lt h
  exact errInfoWord_lt (by omega)

theorem checkDigits_info_lt {inb out : List Byte} {kind : ErrKind} {info : Word} (hlen : inb.length < 65536)
    (h : checkDigits inb (.ok out) = .err kind info) : info.toNat < 2 ^ 24 := by
  unfold checkDigits at h
  split at h
  case h_1 i x hbad =>
    cases h
    exact firstBad_info_lt hlen hbad
  case h_2 => cases h

theorem validated_info_lt {inb out : List Byte} {kind : ErrKind} {info : Word} (hlen : inb.length < 65536)
    (h : validated inb (.ok out) = .err kind info) : info.toNat < 2 ^ 24 := by
  unfold validated at h
  split at h
  case h_1 i x hbad =>
    cases h
    exact firstBad_info_lt hlen hbad
  case h_2 => cases h

theorem unframe_info_lt {f : List Byte} {kind : ErrKind} {info : Word} (h : unframe f = .err kind info) :
    info.toNat < 2 ^ 24 := by
  unfold unframe at h
  split at h
  · cases h
    exact errInfoWord_lt (by omega)
  · dsimp only at h
    split at h
    · cases h
    · cases h
      decide

theorem cdecResult_info_lt {inb : List Byte} {kind : ErrKind} {info : Word} (hlen : inb.length < 65536)
    (h : cdecResult inb = .err kind info) : info.toNat < 2 ^ 24 := by
  cases hdec : decResult inb with
  | ok f => exact unframe_info_lt ((cdecResult_of_ok hdec).symm.trans h)
  | err kind' info' =>
    rw [cdecResult_of_err hdec] at h
    cases h
    exact validated_info_lt hlen hdec

/-- No command's error sets bits 31:24 of `ERR_INFO` (spec 10_state.md R35). -/
theorem resultOf_info_lt {i : Instr} {inb : List Byte} {kind : ErrKind} {info : Word} (hlen : inb.length < 65536)
    (h : resultOf i inb = .err kind info) : info.toNat < 2 ^ 24 := by
  cases i with
  | dec | unmap => exact validated_info_lt hlen h
  | fromdig | map => exact checkDigits_info_lt hlen h
  | cdec => exact cdecResult_info_lt hlen h
  | unframe => exact unframe_info_lt h
  | enc | cenc | todig | csum | frame => cases h
  | illegal w =>
    cases h
    decide

/-! The result of a complete step. -/

/-- What the completion record can hold: an output within `OUT_CAP`, an `ERR_INFO` within its 24 bits
(spec 10_state.md R34, R35). -/
def Result.Fits (c : Config) : Result → Prop
  | .ok out => out.length ≤ c.outCap
  | .err _ info => info.toNat < 2 ^ 24

theorem resultOf_fits (i : Instr) {s : State} (h : s.InputFits) : (resultOf i s.inputBytes).Fits s.cfg := by
  have hcap := inCap_bounds s.cfg
  have hlen := s.inputBytes_length
  cases hr : resultOf i s.inputBytes with
  | ok out =>
    have hout := resultOf_length_le hr
    rw [Result.Fits, Config.outCap, roundup4, encodingBound]
    omega
  | err kind info => exact resultOf_info_lt (by omega) hr

/-- Everything a complete step can do: it is the completion record of a result that the record can hold. -/
theorem exec_completes_fits (i : Instr) (s : State) :
    ∃ n r, Result.Fits s.cfg r ∧ exec i s = .next ((s.drew n).completed r) := by
  by_cases hi : i.isCommand = true
  · rw [exec_command hi]
    by_cases hfits : s.InputFits
    · exact ⟨_, _, resultOf_fits i hfits, runCommand_fits hfits⟩
    · exact ⟨0, .err .inLength 0#32, by simp [Result.Fits], runCommand_overlong (Nat.lt_of_not_le hfits)⟩
  · cases i with
    | illegal w => exact ⟨0, .err .illegalCommand 0#32, by simp [Result.Fits], exec_illegal w s⟩
    | _ => exact absurd rfl hi

/-! The parts of the state that the invariant speaks of. -/

/-- No command has ended since an accept or a reset: `DONE` is 0 and the record holds nothing
(spec 60_exceptions.md R201, 70_reset_and_hazards.md R232). -/
structure State.RecordCleared (s : State) : Prop where
  done : s.done = false
  errCode : s.errCode = none
  errInfo : s.errInfo = 0#32
  outLen : s.outLen = 0#32
  outBuf : s.outBuf = []

theorem State.reset_recordCleared : State.reset.RecordCleared := ⟨rfl, rfl, rfl, rfl, rfl⟩
theorem State.powerOn_recordCleared (s : State) : s.powerOn.RecordCleared := ⟨rfl, rfl, rfl, rfl, rfl⟩
theorem State.softReset_recordCleared (s : State) : s.softReset.RecordCleared := ⟨rfl, rfl, rfl, rfl, rfl⟩
theorem State.accepted_recordCleared (s : State) (v : Word) : (s.accepted v).RecordCleared := ⟨rfl, rfl, rfl, rfl, rfl⟩

namespace State.Inv

variable {s : State}

/-- A state with a cleared record meets the invariant when its input buffer does and a busy engine has its input. -/
theorem of_recordCleared (h : s.RecordCleared) (hwf : s.inBuf.wf = true) (hexists : ∀ c ∈ s.inBuf, c.1 < s.cfg.inCap)
    (hbusy : s.busy = true → s.latchedLen = s.inLen ∧ ((decodeWord s.lastCmd).isCommand = true →
      s.latchedLen.toNat ≤ s.cfg.inCap → s.inBuf.written s.latchedLen.toNat = true)) : s.Inv where
  inCanonical := hwf
  inExists := hexists
  outCanonical := by rw [h.outBuf, Memory.wf_nil]
  outSpecified := by simp [h.outBuf, h.outLen]
  outFits := by simp [h.outLen]
  notBusyAndDone := by simp [h.done]
  busyIsClean _ := ⟨h.errCode, h.outLen⟩
  busyLatched hb := (hbusy hb).1
  busyInputWritten hb := (hbusy hb).2
  errorNoOutput _ := h.outLen
  noErrorNoInfo _ := h.errInfo
  infoReserved := by simp [h.errInfo]

theorem softReset (hs : s.Inv) : s.softReset.Inv :=
  of_recordCleared s.softReset_recordCleared hs.inCanonical hs.inExists nofun

theorem powerOn (s : State) : s.powerOn.Inv :=
  of_recordCleared s.powerOn_recordCleared rfl nofun nofun

/-- An accept that is no model fault has its input written (spec 60_exceptions.md R201). -/
theorem accepted (hs : s.Inv) {v : Word} (h : s.acceptFaults v = false) : (s.accepted v).Inv := by
  refine of_recordCleared (s.accepted_recordCleared v) hs.inCanonical hs.inExists fun _ => ⟨rfl, fun hcmd hlen => ?_⟩
  rw [State.accepted_lastCmd] at hcmd
  rw [State.accepted_latchedLen, State.accepted_cfg] at hlen
  simpa [State.acceptFaults, hcmd, hlen] using h

/-- A completion with a result that fits keeps the invariant. -/
theorem completed (hs : s.Inv) (n : Nat) {r : Result} (hr : r.Fits s.cfg) : ((s.drew n).completed r).Inv := by
  have hcap := outCap_bounds s.cfg
  cases r with
  | ok out =>
    have hout : out.length ≤ s.cfg.outCap := hr
    have hlen : (BitVec.ofNat 32 out.length).toNat = out.length := by
      rw [BitVec.toNat_ofNat]
      omega
    exact {
      inCanonical := hs.inCanonical
      inExists := hs.inExists
      outCanonical := Memory.ofBytes_wf out 0
      outSpecified := fun i => by simp [hlen]
      outFits := hlen.trans_le hout
      notBusyAndDone := by simp
      busyIsClean := nofun
      busyLatched := nofun
      busyInputWritten := nofun
      errorNoOutput := fun h => absurd rfl h
      noErrorNoInfo := fun _ => rfl
      infoReserved := by simp }
  | err kind info =>
    exact {
      inCanonical := hs.inCanonical
      inExists := hs.inExists
      outCanonical := rfl
      outSpecified := by simp
      outFits := by simp
      notBusyAndDone := by simp
      busyIsClean := nofun
      busyLatched := nofun
      busyInputWritten := nofun
      errorNoOutput := fun _ => rfl
      noErrorNoInfo := nofun
      infoReserved := hr }

/-- The invariant does not read `RST_N`, `IE`, `WBUSY` and the model's own fields, and it stays true when `DONE` falls. -/
theorem update (hs : s.Inv) (rstN ie wbusy : Bool) (reply : Option Reply) (draws : Nat) (port : List Event) {done : Bool}
    (hdone : done = true → s.done = true) :
    State.Inv { s with rstN, ie, wbusy, reply, draws, port, done } where
  inCanonical := hs.inCanonical
  inExists := hs.inExists
  outCanonical := hs.outCanonical
  outSpecified := hs.outSpecified
  outFits := hs.outFits
  notBusyAndDone h := hs.notBusyAndDone ⟨h.1, hdone h.2⟩
  busyIsClean := hs.busyIsClean
  busyLatched := hs.busyLatched
  busyInputWritten := hs.busyInputWritten
  errorNoOutput := hs.errorNoOutput
  noErrorNoInfo := hs.noErrorNoInfo
  infoReserved := hs.infoReserved

/-- While idle the input buffer and its length may change: nothing is latched. -/
theorem update_input (hs : s.Inv) (hidle : s.busy = false) (len : Word) {m : Memory} (hwf : m.wf = true)
    (hexists : ∀ c ∈ m, c.1 < s.cfg.inCap) : State.Inv { s with inBuf := m, inLen := len } where
  inCanonical := hwf
  inExists := hexists
  outCanonical := hs.outCanonical
  outSpecified := hs.outSpecified
  outFits := hs.outFits
  notBusyAndDone := hs.notBusyAndDone
  busyIsClean := hs.busyIsClean
  busyLatched h := absurd h (Bool.eq_false_iff.mp hidle)
  busyInputWritten h := absurd h (Bool.eq_false_iff.mp hidle)
  errorNoOutput := hs.errorNoOutput
  noErrorNoInfo := hs.noErrorNoInfo
  infoReserved := hs.infoReserved

/-! The writes and the reset input. -/

theorem ignoredWhileBusy (hs : s.Inv) : s.ignoredWhileBusy.Inv := hs.update _ _ _ _ _ _ id

theorem writeCtrl (hs : s.Inv) (v : Word) : (s.writeCtrl v).Inv := by
  cases h : v.getLsbD 1 with
  | true => exact (s.writeCtrl_reset h) ▸ hs.softReset
  | false => exact (s.writeCtrl_noReset h) ▸ hs.update _ _ _ _ _ _ id

theorem writeStatus (hs : s.Inv) (v : Word) : (s.writeStatus v).Inv :=
  hs.update _ _ _ _ _ _ fun h => (Bool.and_eq_true_iff.mp h).1

theorem writeInLen (hs : s.Inv) (v : Word) : (s.writeInLen v).Inv := by
  unfold State.writeInLen
  split
  case isTrue => exact hs.ignoredWhileBusy
  case isFalse hb => exact hs.update_input (Bool.eq_false_iff.mpr hb) v hs.inCanonical hs.inExists

theorem writeInput (hs : s.Inv) {i : Nat} {bytes : List Byte} (h : i + bytes.length ≤ s.cfg.inCap) :
    (s.writeInput i bytes).Inv := by
  unfold State.writeInput
  split
  case isTrue => exact hs.ignoredWhileBusy
  case isFalse hb =>
    refine hs.update_input (Bool.eq_false_iff.mpr hb) s.inLen (Memory.writeBytes_wf bytes i hs.inCanonical) fun c hc => ?_
    rcases Memory.mem_writeBytes bytes hc with hc | ⟨-, hc⟩
    · exact hs.inExists c hc
    · omega

theorem setRstN (hs : s.Inv) (level : Bool) : (s.setRstN level).Inv := by
  unfold State.setRstN
  split
  · split
    · exact hs
    · exact powerOn s
  · exact hs.update _ _ _ _ _ _ id

end State.Inv

/-! The step. -/

/-- An entry of the port that answers a next state keeps the invariant. -/
theorem takeEvent_keeps_inv {e : Event} {s t : State} (hs : s.Inv) (h : takeEvent e s = .next t) : t.Inv := by
  have hnone : State.Inv { s with reply := none } := hs.update _ _ _ _ _ _ id
  rcases takeEvent_next h with ⟨_, _, _, _, -, rfl⟩ | ⟨_, -, rfl⟩ | ⟨_, -, -, rfl⟩ | ⟨_, -, -, hf, rfl⟩ | ⟨_, -, rfl⟩ |
    ⟨_, -, rfl⟩ | ⟨_, _, _, -, rfl⟩ | ⟨_, _, _, _, -, hi, rfl⟩ | ⟨_, _, -, -, -, hexec, -⟩ | ⟨-, -, rfl⟩ | ⟨_, -, rfl⟩
  · exact hs.update _ _ _ _ _ _ id
  · exact hnone.writeCtrl _
  · exact hnone.ignoredWhileBusy
  · exact hnone.accepted hf
  · exact hnone.writeStatus _
  · exact hnone.writeInLen _
  · exact hnone
  · exact hnone.writeInput (by rwa [laneBytes_length])
  · obtain ⟨n, r, hr, hnext⟩ := exec_completes_fits (decodeWord s.lastCmd) s
    cases hnext.symm.trans hexec
    exact hs.completed n hr
  · exact hs
  · exact hs.setRstN _

/-- Settles O9: the step is an entry of the port, and taking it off the port changes nothing the invariant reads. -/
theorem stepKeepsInvariant : Obligations.StepKeepsInvariant := by
  intro s t hs h
  rcases step_next h with ⟨-, ht⟩ | ⟨e, rest, -, ht⟩
  · exact takeEvent_keeps_inv hs ht
  · exact takeEvent_keeps_inv (hs.update _ _ _ _ _ rest id) ht

/-- Settles O8: the reset state has an empty input buffer, a cleared record and an idle engine. -/
theorem resetMeetsInvariant : Obligations.ResetMeetsInvariant :=
  State.Inv.of_recordCleared State.reset_recordCleared rfl nofun nofun

end Sys2Proof.Machine
end

section
/-! SUPPORT. What a step does to the record, to `BUSY` and to `WBUSY`, said once, and the proofs of the statements about
the lifetime of each. -/

namespace Sys2Proof.Machine

/-- `t` has the record, `BUSY` and the configuration of `s`. -/
structure State.SameRecord (s t : State) : Prop where
  cfg : t.cfg = s.cfg
  busy : t.busy = s.busy
  lastCmd : t.lastCmd = s.lastCmd
  errCode : t.errCode = s.errCode
  errInfo : t.errInfo = s.errInfo
  outLen : t.outLen = s.outLen
  outBuf : t.outBuf = s.outBuf

/-- What an entry of the port does to the record, `BUSY` and `WBUSY`: the record stays, and `WBUSY` with it unless a
write of `STATUS` clears it; or a command is accepted, completes, or is dropped by one of the two resets. -/
inductive RecordEffect (e : Event) (s : State) : State → Prop where
  | kept {t : State} : s.SameRecord t → (s.wbusy = true → t.wbusy = true) → RecordEffect e s t
  | status (v : Nat) : e = .busWrite (s.cfg.base + 0x010) 4 v →
      RecordEffect e s (State.writeStatus { s with reply := none } (BitVec.ofNat 32 v))
  | accepted (v : Nat) : e = .busWrite (s.cfg.base + 0x00C) 4 v → s.busy = false →
      RecordEffect e s (State.accepted { s with reply := none } (BitVec.ofNat 32 v))
  | completed (n : Nat) (r : Result) : e = .engine → s.busy = true → RecordEffect e s ((s.drew n).completed r)
  | softReset (v : Nat) : e = .busWrite (s.cfg.base + 0x008) 4 v → v / 2 % 2 = 1 →
      RecordEffect e s (State.softReset { s with reply := none })
  | powerOn : e = .rst true → s.rstN = false → RecordEffect e s s.powerOn

theorem writeCtrl_recordEffect (s : State) (v : Nat) : RecordEffect (.busWrite (s.cfg.base + 0x008) 4 v) s
    (State.writeCtrl { s with reply := none } (BitVec.ofNat 32 v)) := by
  by_cases hv : v / 2 % 2 = 1
  · rw [State.writeCtrl_reset _ ((ofNat_bit1 v).trans (decide_eq_true hv))]
    exact .softReset v rfl hv
  · rw [State.writeCtrl_noReset _ ((ofNat_bit1 v).trans (decide_eq_false hv))]
    exact .kept ⟨rfl, rfl, rfl, rfl, rfl, rfl, rfl⟩ id

theorem writeInLen_recordEffect (e : Event) (s : State) (v : Word) :
    RecordEffect e s (State.writeInLen { s with reply := none } v) := by
  unfold State.writeInLen
  split
  · exact .kept ⟨rfl, rfl, rfl, rfl, rfl, rfl, rfl⟩ fun _ => rfl
  · exact .kept ⟨rfl, rfl, rfl, rfl, rfl, rfl, rfl⟩ id

theorem writeInput_recordEffect (e : Event) (s : State) (i : Nat) (bytes : List Byte) :
    RecordEffect e s (State.writeInput { s with reply := none } i bytes) := by
  unfold State.writeInput
  split
  · exact .kept ⟨rfl, rfl, rfl, rfl, rfl, rfl, rfl⟩ fun _ => rfl
  · exact .kept ⟨rfl, rfl, rfl, rfl, rfl, rfl, rfl⟩ id

theorem setRstN_recordEffect (s : State) (level : Bool) : RecordEffect (.rst level) s (s.setRstN level) := by
  unfold State.setRstN
  split
  case isTrue hl =>
    subst hl
    split
    case isTrue => exact .kept ⟨rfl, rfl, rfl, rfl, rfl, rfl, rfl⟩ id
    case isFalse hr => exact .powerOn rfl (Bool.eq_false_iff.mpr hr)
  case isFalse => exact .kept ⟨rfl, rfl, rfl, rfl, rfl, rfl, rfl⟩ id

theorem takeEvent_recordEffect {e : Event} {s t : State} (h : takeEvent e s = .next t) : RecordEffect e s t := by
  rcases takeEvent_next h with ⟨_, _, _, _, -, rfl⟩ | ⟨v, rfl, rfl⟩ | ⟨_, -, -, rfl⟩ | ⟨v, rfl, hb, -, rfl⟩ | ⟨v, rfl, rfl⟩ |
    ⟨_, -, rfl⟩ | ⟨_, _, _, -, rfl⟩ | ⟨_, _, _, _, -, -, rfl⟩ | ⟨n, r, rfl, hb, -, -, rfl⟩ | ⟨-, -, rfl⟩ | ⟨l, rfl, rfl⟩
  · exact .kept ⟨rfl, rfl, rfl, rfl, rfl, rfl, rfl⟩ id
  · exact writeCtrl_recordEffect s v
  · exact .kept ⟨rfl, rfl, rfl, rfl, rfl, rfl, rfl⟩ fun _ => rfl
  · exact .accepted v rfl hb
  · exact .status v rfl
  · exact writeInLen_recordEffect _ s _
  · exact .kept ⟨rfl, rfl, rfl, rfl, rfl, rfl, rfl⟩ id
  · exact writeInput_recordEffect _ s _ _
  · exact .completed n r rfl hb
  · exact .kept ⟨rfl, rfl, rfl, rfl, rfl, rfl, rfl⟩ id
  · exact setRstN_recordEffect s l

/-- What a step does to the record: it is the effect of the port's first entry, or, with nothing at the port, of the
engine's turn. -/
theorem step_recordEffect {s t : State} (h : step s = .next t) : ∃ e rest,
    (s.port = e :: rest ∨ (s.port = [] ∧ e = .engine)) ∧ RecordEffect e { s with port := rest } t := by
  rcases step_next h with ⟨hp, ht⟩ | ⟨e, rest, hp, ht⟩
  · have hs : s = { s with port := [] } := by rw [← hp]
    exact ⟨.engine, [], .inr ⟨hp, rfl⟩, hs ▸ takeEvent_recordEffect ht⟩
  · exact ⟨e, rest, .inl hp, takeEvent_recordEffect ht⟩

/-! The statements. -/

/-- Settles O10: no effect of a step reaches the configuration. -/
theorem configurationNeverChanges : Obligations.ConfigurationNeverChanges := by
  intro s t h
  obtain ⟨e, rest, -, heff⟩ := step_recordEffect h
  cases heff with
  | kept hsame => exact hsame.cfg
  | completed n r => exact State.completed_cfg _ r
  | status | accepted | softReset | powerOn => rfl

/-- Settles O57: an accept leaves the engine busy, a completion needs it busy, and the resets are excluded; every other
step keeps the record. -/
theorem recordStaysUntilAcceptOrReset : Obligations.RecordStaysUntilAcceptOrReset := by
  intro s t hidle h htidle hrise hsoft
  obtain ⟨e, rest, hport, heff⟩ := step_recordEffect h
  cases heff with
  | kept hsame => exact ⟨hsame.outLen, hsame.errCode, hsame.errInfo, hsame.lastCmd, fun i => by rw [hsame.outBuf]⟩
  | status => exact ⟨rfl, rfl, rfl, rfl, fun _ => rfl⟩
  | accepted => cases htidle
  | completed n r he hbusy => exact absurd hbusy (Bool.eq_false_iff.mp hidle)
  | softReset v he hv =>
    have hp : s.port = .busWrite (s.cfg.base + 0x008) 4 v :: rest := by simpa [he] using hport
    have := hsoft rest v hp
    omega
  | powerOn he => exact absurd (by simpa [he] using hport) (hrise rest)

/-- Settles O58: `WBUSY` is kept, or a write of `STATUS` clears it by bit 3, or a reset does. -/
theorem writeBusyFlagIsSticky : Obligations.WriteBusyFlagIsSticky := by
  intro s t h hset hclear
  obtain ⟨e, rest, hport, heff⟩ := step_recordEffect h
  cases heff with
  | kept _ hw => cases (hw hset).symm.trans hclear
  | status v he =>
    have hbit : (s.wbusy && decide (v / 8 % 2 = 0)) = false := by
      rwa [State.writeStatus_ofNat] at hclear
    refine .inl ⟨rest, v, by simpa [he] using hport, ?_⟩
    simpa [hset] using hbit
  | accepted => cases hset.symm.trans hclear
  | completed n r =>
    rw [State.completed_wbusy] at hclear
    cases hset.symm.trans hclear
  | softReset v he hv => exact .inr (.inl ⟨rest, v, by simpa [he] using hport, hv⟩)
  | powerOn he hr => exact .inr (.inr ⟨hr, rest, by simpa [he] using hport⟩)

/-- Settles O59: `BUSY` is kept but by an accept, which raises it, a completion and the two resets, which lower it. -/
theorem busyOnlyChangesAsDocumented : Obligations.BusyOnlyChangesAsDocumented := by
  intro s t h
  obtain ⟨e, rest, hport, heff⟩ := step_recordEffect h
  refine ⟨fun hidle hbusy => ?_, fun hbusy hidle => ?_⟩
  · cases heff with
    | kept hsame => cases hidle.symm.trans (hsame.busy.symm.trans hbusy)
    | status => cases hidle.symm.trans hbusy
    | accepted v he => exact ⟨rest, v, by simpa [he] using hport⟩
    | completed n r => cases (State.completed_busy _ r).symm.trans hbusy
    | softReset | powerOn => cases hbusy
  · cases heff with
    | kept hsame => cases hbusy.symm.trans (hsame.busy.symm.trans hidle)
    | status => cases hbusy.symm.trans hidle
    | accepted => cases hidle
    | completed n r he =>
      exact .inl ⟨hport.symm.imp (fun hnil => hnil.1) (fun hcons => ⟨rest, he ▸ hcons⟩), State.completed_done _ r⟩
    | softReset v he hv => exact .inr (.inl ⟨rest, v, by simpa [he] using hport, hv⟩)
    | powerOn he hr => exact .inr (.inr ⟨hr, rest, by simpa [he] using hport⟩)

end Sys2Proof.Machine
end

section
/-! SUPPORT. The engine's turn: the command it runs, the input it reads and what its completion leaves, and the proofs of
the statements about it. -/

namespace Sys2Proof.Machine

/-! The turn of a busy and of an idle engine. -/

/-- The engine's turn while the block is held in reset or nothing is busy (spec 60_exceptions.md R219). -/
theorem engineTurn_of_not_enabled {s : State} (h : s.rstN = false ∨ s.busy = false) : engineTurn s = .next s := by
  rw [engineTurn_eq, if_neg]
  rintro ⟨hr, hb⟩
  simp [hr, hb] at h

theorem engineTurn_busy {s : State} (hr : s.rstN = true) (hb : s.busy = true) :
    engineTurn s = exec (decodeWord s.lastCmd) s := by
  rw [engineTurn_eq, if_pos ⟨hr, hb⟩]

/-- An engine that is not enabled takes its entry off the port and does nothing else. -/
theorem step_engine_of_not_enabled {s : State} (h : s.rstN = false ∨ s.busy = false) :
    (s.port = [] → step s = .next s) ∧ (∀ rest, s.port = .engine :: rest → step s = .next { s with port := rest }) :=
  ⟨fun hp => (step_nil hp).trans (engineTurn_of_not_enabled h),
    fun rest hp => (step_cons hp).trans (engineTurn_of_not_enabled (s := { s with port := rest }) h)⟩

/-- Settles O11: the lanes of `LAST_CMD` decode to its instruction, which a busy engine runs. -/
theorem stepRunsDecodedCommand : Obligations.StepRunsDecodedCommand := by
  refine ⟨fun s i more hr hb hdec => ?_, fun s hidle => step_engine_of_not_enabled (.inr hidle), fun s => rfl⟩
  have hi : decodeWord s.lastCmd = i := by
    rw [State.fetch, decodeBytes_lanesOfWord_nil] at hdec
    cases hdec
    rfl
  refine ⟨fun hp => ?_, fun rest hp => ?_⟩
  · rw [step_nil hp, engineTurn_busy hr hb, hi]
  · rw [step_cons hp]
    exact (engineTurn_busy (s := { s with port := rest }) hr hb).trans (by rw [hi])

/-! The input of a command. -/

/-- Within the latched length an input byte is the buffer's where the buffer has one (spec 30_encoding.md R93). -/
theorem State.inputBytes_getElem? {s : State} {i : Nat} {x : Byte} (hi : i < s.latchedLen.toNat)
    (hx : s.inBuf.read? i = some x) : s.inputBytes[i]? = some x := by
  rw [State.inputBytes, List.getElem?_map, List.getElem?_range hi, Option.map_some, Memory.readOrDraw_of_read? hx]

/-- Two states with the same latched length and the same written bytes below it give a command the same input. -/
theorem State.inputBytes_congr {s₁ s₂ : State} (hlen : s₁.latchedLen = s₂.latchedLen)
    (h : ∀ k, k < s₁.latchedLen.toNat → ∃ x, s₁.inBuf.read? k = some x ∧ s₂.inBuf.read? k = some x) :
    s₁.inputBytes = s₂.inputBytes := by
  refine List.ext_getElem? fun i => ?_
  by_cases hi : i < s₁.latchedLen.toNat
  · obtain ⟨x, h₁, h₂⟩ := h i hi
    rw [State.inputBytes_getElem? hi h₁, State.inputBytes_getElem? (hlen ▸ hi) h₂]
  · rw [List.getElem?_eq_none (by simpa using hi), List.getElem?_eq_none (by simpa [← hlen] using hi)]

/-- Settles O12: the length is the latched one, and each byte is the written one. -/
theorem inputIsTheWrittenBytes : Obligations.InputIsTheWrittenBytes := by
  refine fun s h => ⟨s.inputBytes_length, fun i hi => ?_⟩
  obtain ⟨x, hx⟩ := h i hi
  rw [State.inputBytes_getElem? hi hx, hx]

/-! The completion. -/

/-- A completion leaves everything outside the record as it was (spec 60_exceptions.md R208). -/
theorem State.completed_sameOutsideRecord (s : State) (n : Nat) (r : Result) :
    s.SameOutsideRecord ((s.drew n).completed r) := by
  constructor <;> simp

/-- Every complete step answers a next state, in which the engine is idle and the command has ended. -/
theorem exec_ends (i : Instr) (s : State) :
    ∃ t, exec i s = .next t ∧ t.busy = false ∧ t.done = true ∧ s.SameOutsideRecord t := by
  obtain ⟨n, r, hexec⟩ := exec_completes i s
  exact ⟨_, hexec, State.completed_busy _ r, State.completed_done _ r, s.completed_sameOutsideRecord n r⟩

/-- Settles O13: the completion record sets `DONE`, and `IRQ` is `IE` then. -/
theorem everyCommandCompletes : Obligations.EveryCommandCompletes := by
  intro i s
  obtain ⟨t, hexec, hbusy, hdone, hframe⟩ := exec_ends i s
  exact ⟨t, hexec, hbusy, hdone, by rw [State.irq, hdone, hframe.ie, Bool.and_true]⟩

/-- Settles O14: the frame of the completion record. -/
theorem completionIsContained : Obligations.CompletionIsContained := by
  intro i s t h
  obtain ⟨n, r, hexec⟩ := exec_completes i s
  cases hexec.symm.trans h
  exact s.completed_sameOutsideRecord n r

/-- Settles O20: the common check of the length comes before the command's function. -/
theorem overlongInputCompletesWithError : Obligations.OverlongInputCompletesWithError :=
  fun _ s hi hlong => ⟨_, (exec_command hi s).trans (runCommand_overlong hlong), State.completedErr (n := 0)⟩

/-! The record as a function of the input. -/

/-- `t` and `u` show the same record. -/
def State.RecordEq (t u : State) : Prop :=
  t.errCode = u.errCode ∧ t.errInfo = u.errInfo ∧ t.outLen = u.outLen ∧ ∀ k, t.outBuf.read? k = u.outBuf.read? k

theorem State.completed_recordEq (s₁ s₂ : State) (r : Result) : (s₁.completed r).RecordEq (s₂.completed r) := by
  cases r <;> exact ⟨rfl, rfl, rfl, fun _ => rfl⟩

/-- Settles O15: the common check reads the length and the capacity, the command's function the input alone. -/
theorem resultDependsOnlyOnInput : Obligations.ResultDependsOnlyOnInput := by
  intro i s₁ s₂ t₁ t₂ hlen hcap hin h₁ h₂
  by_cases hi : i.isCommand = true
  · rw [exec_command hi] at h₁ h₂
    by_cases hfits : s₁.latchedLen.toNat ≤ s₁.cfg.inCap
    · rw [runCommand_fits hfits] at h₁
      rw [runCommand_fits (by rwa [← hlen, ← hcap]), ← State.inputBytes_congr hlen hin] at h₂
      cases h₁
      cases h₂
      exact State.completed_recordEq _ _ _
    · have hlong := Nat.lt_of_not_le hfits
      rw [runCommand_overlong hlong] at h₁
      rw [runCommand_overlong (by rwa [← hlen, ← hcap])] at h₂
      cases h₁
      cases h₂
      exact State.completed_recordEq _ _ _
  · cases i with
    | illegal w =>
      cases h₁
      cases h₂
      exact State.completed_recordEq _ _ (.err .illegalCommand 0#32)
    | _ => exact absurd rfl hi

/-! A host that polls. -/

/-- Settles O16, by induction on the number of reads: a read of `STATUS` keeps the engine busy, and the empty port is
the engine's turn. -/
theorem pollingSeesCompletion : Obligations.PollingSeesCompletion := by
  intro k
  induction k with
  | zero =>
    intro s hr hb hp
    obtain ⟨t, hexec, hbusy, hdone, hframe⟩ := exec_ends (decodeWord s.lastCmd) s
    have hstep : step s = .next t := by rw [step_nil hp, engineTurn_busy hr hb, hexec]
    exact ⟨t, run_succ 0 hstep, hbusy, hdone, hframe.lastCmd, hframe.inBuf⟩
  | succ k ih =>
    intro s hr hb hp
    rw [List.replicate_succ] at hp
    rw [run_succ (k + 1) (step_readReg .status hr hp)]
    exact ih _ hr hb rfl

end Sys2Proof.Machine
end

section
/-! SUPPORT. The state after reset and the reset input, and the proofs of the statements about them. -/

namespace Sys2Proof.Machine

/-- Settles O5: each register's reset value; `CAPS` is that of the reference configuration. -/
theorem resetStateHoldsDocumentedValues : Obligations.ResetStateHoldsDocumentedValues :=
  ⟨rfl, rfl, rfl, rfl, rfl, rfl, rfl, rfl, rfl, Memory.read?_nil, Memory.read?_nil, rfl, by decide⟩

/-! The reset input. -/

/-- While `RST_N` is low the block admits no read (spec 70_reset_and_hazards.md R230). -/
theorem busRead_heldInReset {s : State} (addr w : Nat) (h : s.rstN = false) :
    busRead addr w s = .fault .heldInReset := by
  simp [busRead, h]

theorem State.setRstN_fall (s : State) : s.setRstN false = { s with rstN := false } := rfl

theorem State.setRstN_rise {s : State} (h : s.rstN = false) : s.setRstN true = s.powerOn := by
  simp [State.setRstN, h]

theorem step_rst {s : State} {rest : List Event} {level : Bool} (hp : s.port = .rst level :: rest) :
    step s = .next (State.setRstN { s with port := rest } level) := step_cons hp

theorem step_rise {s : State} {rest : List Event} (hr : s.rstN = false) (hp : s.port = .rst true :: rest) :
    step s = .next (State.powerOn { s with port := rest }) := by
  rw [step_rst hp, State.setRstN_rise (s := { s with port := rest }) hr]

/-- Settles O6: the fall changes the level alone, no access and no turn of the engine gets past a low level, and the rise
is the power-on state. -/
theorem powerOnResetGivesResetValues : Obligations.PowerOnResetGivesResetValues := by
  refine ⟨fun s rest hp => ⟨_, step_rst hp, rfl, rfl, rfl, rfl⟩, fun s rest addr w v hr hp => ?_, fun s rest hr => ?_,
    fun s rest hr hp => ⟨_, step_rise hr hp, ?_⟩⟩
  · rcases hp with hp | hp
    · exact (step_cons hp).trans (busRead_heldInReset (s := { s with port := rest }) addr w hr)
    · exact (step_cons hp).trans (busWrite_heldInReset (s := { s with port := rest }) addr w v hr)
  · obtain ⟨hnil, hcons⟩ := step_engine_of_not_enabled (.inl hr)
    exact ⟨hnil, hcons rest⟩
  · exact ⟨rfl, rfl, rfl, rfl, rfl, rfl, rfl, rfl, rfl, rfl, Memory.read?_nil, Memory.read?_nil, rfl, rfl⟩

end Sys2Proof.Machine
end

section
/-! SUPPORT. The value of a sequence, and the reference engine of the radix converter: what one limb, one pass and all
passes compute, and the proofs of the statements about them. -/

namespace Sys2Proof.Machine

/-! A number and its digit sequence. -/

/-- Settles O32: the computed digits denote the number, and no other sequence without a leading zero does. -/
theorem notationIsUnique : Obligations.NotationIsUnique :=
  fun _ v hb hb' => ⟨_, radixDigits_isNotation hb hb' v, fun _ h => h.eq_radixDigits hb⟩

/-- Settles O33, by induction on the sequence: its first byte stands before all others. -/
theorem valueIsPositionalSum : Obligations.ValueIsPositionalSum := by
  intro b s
  induction s with
  | nil => rfl
  | cons x xs ih =>
    rw [valRadix_cons, ih]
    refine Eq.trans ?_ (Fin.sum_univ_succ (n := xs.length) _).symm
    refine congrArg₂ (· + ·) rfl ?_
    refine Finset.sum_congr rfl fun i _ => ?_
    have hexp : xs.length - 1 - i.val = xs.length + 1 - 1 - (i.val + 1) := by omega
    rw [hexp]
    rfl

/-! Sequences of limbs. -/

theorem valBE_nil : valBE [] = 0 := rfl

theorem valBE_cons (x : Byte) (xs : List Byte) : valBE (x :: xs) = x.toNat * 256 ^ xs.length + valBE xs :=
  valRadix_cons 256 x xs

/-- The first limb is not zero exactly when the value takes the sequence's whole length. -/
theorem limb_ne_zero_iff (x : Byte) (xs : List Byte) : x ≠ 0x00#8 ↔ 256 ^ xs.length ≤ valBE (x :: xs) := by
  have hlt := valBE_lt xs
  rw [valBE_cons]
  constructor
  · intro hx
    have hpos : 1 ≤ x.toNat := by
      rw [Nat.one_le_iff_ne_zero]
      simpa [← BitVec.toNat_inj] using hx
    have := Nat.le_mul_of_pos_left (256 ^ xs.length) hpos
    omega
  · rintro hle rfl
    simp at hle
    omega

/-! The long division. -/

/-- One limb divides `r * 256 + limb` by 58: the 14-bit accumulator holds it, and the quotient is a byte
(spec 40_converter.md R117). -/
theorem divLimb_spec {r : BitVec 6} (limb : Byte) (hr : r.toNat < 58) :
    (divLimb r limb).1.toNat * 58 + (divLimb r limb).2.toNat = r.toNat * 256 + limb.toNat ∧
      (divLimb r limb).2.toNat < 58 := by
  have hlimb := limb.isLt
  have hacc : (r.setWidth 14 * 256#14 + limb.setWidth 14 : BitVec 14).toNat = r.toNat * 256 + limb.toNat := by
    simp
    omega
  have hdivisor : (58#14).toNat = 58 := rfl
  simp only [divLimb, BitVec.toNat_setWidth, BitVec.toNat_udiv, BitVec.toNat_umod, hacc, hdivisor]
  clear hacc
  have hquot : (r.toNat * 256 + limb.toNat) / 58 < 256 := by omega
  omega

theorem divPass_length (limbs : List Byte) : ∀ r : BitVec 6, (divPass r limbs).1.length = limbs.length := by
  induction limbs with
  | nil => intro r; rfl
  | cons x xs ih =>
    intro r
    rw [divPass, List.length_cons, ih, List.length_cons]

/-- A pass divides the value of the limbs, with the remainder so far before them, by 58. -/
theorem divPass_spec (limbs : List Byte) : ∀ {r : BitVec 6}, r.toNat < 58 →
    valBE (divPass r limbs).1 * 58 + (divPass r limbs).2.toNat = r.toNat * 256 ^ limbs.length + valBE limbs ∧
      (divPass r limbs).2.toNat < 58 := by
  induction limbs with
  | nil =>
    intro r hr
    simpa [divPass, valBE_nil] using hr
  | cons x xs ih =>
    intro r hr
    obtain ⟨hlimb, hrem⟩ := divLimb_spec x hr
    obtain ⟨hpass, hlt⟩ := ih hrem
    refine ⟨?_, hlt⟩
    have hlen := divPass_length xs (divLimb r x).2
    simp only [divPass, valBE_cons, List.length_cons, hlen]
    calc ((divLimb r x).1.toNat * 256 ^ xs.length + valBE (divPass (divLimb r x).2 xs).1) * 58
          + (divPass (divLimb r x).2 xs).2.toNat
        = (divLimb r x).1.toNat * 58 * 256 ^ xs.length
          + (valBE (divPass (divLimb r x).2 xs).1 * 58 + (divPass (divLimb r x).2 xs).2.toNat) := by ring
      _ = ((divLimb r x).1.toNat * 58 + (divLimb r x).2.toNat) * 256 ^ xs.length + valBE xs := by rw [hpass]; ring
      _ = r.toNat * 256 ^ (xs.length + 1) + (x.toNat * 256 ^ xs.length + valBE xs) := by rw [hlimb]; ring

theorem divPass_zero (limbs : List Byte) : valBE (divPass 0#6 limbs).1 = valBE limbs / 58 ∧
    (divPass 0#6 limbs).2.toNat = valBE limbs % 58 := by
  have hzero : (0#6).toNat = 0 := rfl
  obtain ⟨hpass, hlt⟩ := divPass_spec limbs (r := 0#6) (by decide)
  rw [hzero] at hpass
  omega

theorem skipZeros_eq_drop (limbs : List Byte) : skipZeros limbs = limbs.drop (lz limbs) := by
  have hdrop := List.drop_left (l₁ := limbs.takeWhile (· == 0x00#8)) (l₂ := skipZeros limbs)
  rw [skipZeros, List.takeWhile_append_dropWhile] at hdrop
  exact hdrop.symm

theorem skipZeros_isNotation (limbs : List Byte) : IsNotation 256 (valBE limbs) (skipZeros limbs) := by
  rw [skipZeros_eq_drop]
  exact drop_lz_isNotation fun x _ => x.isLt

/-- The passes leave the remainders of repeated division by 58, one each (the loop of spec 40_converter.md R110). -/
theorem divPasses_eq_remainders (fuel : Nat) : ∀ {v : Nat} {limbs : List Byte}, IsNotation 256 v limbs →
    divPasses fuel limbs = (remainders 58 fuel v).map (BitVec.ofNat 6) := by
  induction fuel with
  | zero => intro v limbs h; rfl
  | succ fuel ih =>
    intro v limbs h
    have hnil : limbs = [] ↔ v = 0 := by
      rw [h.eq_radixDigits (by omega), radixDigits_eq_nil_iff (by omega)]
    obtain ⟨-, -, hval⟩ := h
    obtain ⟨hquot, hrem⟩ := divPass_zero limbs
    have hv : valBE limbs = v := hval
    rw [divPasses, remainders]
    by_cases hz : v = 0
    · rw [if_pos (hnil.mpr hz), if_pos hz]
      rfl
    · have hdigit : (divPass 0#6 limbs).2 = BitVec.ofNat 6 (v % 58) := by
        rw [← hv, ← hrem, BitVec.ofNat_toNat, BitVec.setWidth_eq]
      have hrest := skipZeros_isNotation (divPass 0#6 limbs).1
      rw [hquot, hv] at hrest
      rw [if_neg (mt hnil.mp hz), if_neg hz, List.map_cons, ← hdigit, ← ih hrest]

/-- A digit of a pass as a byte. -/
theorem setWidth_ofNat_digit {d : Nat} (h : d < 58) : (BitVec.ofNat 6 d).setWidth 8 = BitVec.ofNat 8 d := by
  apply BitVec.eq_of_toNat_eq
  simp
  omega

/-- Settles O44: the passes leave the digits, least significant first, and two passes for each byte are enough. -/
theorem divisionEngineComputesToDigits : Obligations.DivisionEngineComputesToDigits := by
  intro inb
  have hfuel : valBE inb < 58 ^ (2 * inb.length) := by
    rw [Nat.pow_mul]
    exact (valBE_lt inb).trans_le (Nat.pow_le_pow_left (by norm_num) _)
  have hdigits : ∀ d ∈ Nat.digits 58 (valBE inb), (BitVec.ofNat 6 d).setWidth 8 = BitVec.ofNat 8 d :=
    fun d hd => setWidth_ofNat_digit (Nat.digits_lt_base (by omega) hd)
  rw [engineToDigits, divPasses_eq_remainders _ (skipZeros_isNotation inb), remainders_eq_digits (by omega) _ _ hfuel,
    toDigits, radixDigits_eq (by omega), ← List.map_reverse, List.map_map]
  exact List.map_congr_left fun d hd => hdigits d (List.mem_reverse.mp hd)

/-! The multiply-accumulate. -/

/-- One limb computes `limb * 58 + c`: the 14-bit accumulator holds it, and the carry is below 58
(spec 40_converter.md R118). -/
theorem macLimb_spec (limb : Byte) {c : BitVec 6} (hc : c.toNat < 58) :
    (macLimb limb c).2.toNat * 256 + (macLimb limb c).1.toNat = limb.toNat * 58 + c.toNat ∧
      (macLimb limb c).2.toNat < 58 := by
  have hlimb := limb.isLt
  have hacc : (limb.setWidth 14 * 58#14 + c.setWidth 14 : BitVec 14).toNat = limb.toNat * 58 + c.toNat := by
    simp
    omega
  have hcarry : (limb.toNat * 58 + c.toNat) / 2 ^ 8 < 58 := by omega
  have hfits : (limb.toNat * 58 + c.toNat) / 2 ^ 8 % 2 ^ 6 = (limb.toNat * 58 + c.toNat) / 2 ^ 8 :=
    Nat.mod_eq_of_lt (by omega)
  simp only [macLimb, BitVec.toNat_setWidth, BitVec.toNat_ushiftRight, Nat.shiftRight_eq_div_pow, hacc, hfits]
  omega

theorem macPass_length (c : BitVec 6) (limbs : List Byte) : (macPass c limbs).1.length = limbs.length := by
  induction limbs with
  | nil => rfl
  | cons x xs ih => rw [macPass, List.length_cons, ih, List.length_cons]

/-- A pass multiplies the value of the limbs by 58 and adds the digit; the carry stands before the limbs. -/
theorem macPass_spec {c : BitVec 6} (hc : c.toNat < 58) (limbs : List Byte) :
    (macPass c limbs).2.toNat * 256 ^ limbs.length + valBE (macPass c limbs).1 = valBE limbs * 58 + c.toNat ∧
      (macPass c limbs).2.toNat < 58 := by
  induction limbs with
  | nil => simpa [macPass, valBE_nil] using hc
  | cons x xs ih =>
    obtain ⟨hpass, hcarry⟩ := ih
    obtain ⟨hlimb, hlt⟩ := macLimb_spec x hcarry
    refine ⟨?_, hlt⟩
    simp only [macPass, valBE_cons, List.length_cons, macPass_length]
    calc (macLimb x (macPass c xs).2).2.toNat * 256 ^ (xs.length + 1)
          + ((macLimb x (macPass c xs).2).1.toNat * 256 ^ xs.length + valBE (macPass c xs).1)
        = ((macLimb x (macPass c xs).2).2.toNat * 256 + (macLimb x (macPass c xs).2).1.toNat) * 256 ^ xs.length
          + valBE (macPass c xs).1 := by ring
      _ = x.toNat * 58 * 256 ^ xs.length
          + ((macPass c xs).2.toNat * 256 ^ xs.length + valBE (macPass c xs).1) := by rw [hlimb]; ring
      _ = (x.toNat * 256 ^ xs.length + valBE xs) * 58 + c.toNat := by rw [hpass]; ring

/-- Without a carry the first limb stays non-zero, as the value does not shrink. -/
theorem macPass_head?_ne {c : BitVec 6} (hc : c.toNat < 58) {limbs : List Byte} (hhead : limbs.head? ≠ some 0x00#8)
    (hcarry : (macPass c limbs).2 = 0) : (macPass c limbs).1.head? ≠ some 0x00#8 := by
  obtain ⟨hval, -⟩ := macPass_spec hc limbs
  have hlen := macPass_length c limbs
  cases limbs with
  | nil => simp [macPass]
  | cons x xs =>
    have hbig : 256 ^ xs.length ≤ valBE (x :: xs) := (limb_ne_zero_iff x xs).mp (by simpa using hhead)
    cases hp : (macPass c (x :: xs)).1 with
    | nil => simp
    | cons y ys =>
      rw [hp, List.length_cons, List.length_cons] at hlen
      rw [hp, hcarry] at hval
      have hy : 256 ^ ys.length ≤ valBE (y :: ys) := by
        rw [show ys.length = xs.length by omega]
        simp at hval
        omega
      simpa using (limb_ne_zero_iff y ys).mpr hy

/-- Folding a digit into the minimal bytes of a number gives the minimal bytes of `v * 58 + d`. -/
theorem macDigit_isNotation {v : Nat} {limbs : List Byte} (h : IsNotation 256 v limbs) {d : Byte} (hd : d.toNat ≤ 57) :
    IsNotation 256 (v * 58 + d.toNat) (macDigit limbs d) := by
  obtain ⟨-, hhead, hv⟩ := h
  have hdigit : (d.setWidth 6).toNat = d.toNat := by
    simp
    omega
  have hc : (d.setWidth 6).toNat < 58 := by omega
  obtain ⟨hval, hlt⟩ := macPass_spec hc limbs
  have hv' : valBE limbs = v := hv
  rw [hdigit, hv'] at hval
  refine ⟨fun x _ => x.isLt, ?_⟩
  unfold macDigit
  by_cases hcarry : (macPass (d.setWidth 6) limbs).2 = 0
  · simp only [if_pos hcarry]
    refine ⟨macPass_head?_ne hc hhead hcarry, ?_⟩
    rw [hcarry, show (0 : BitVec 6).toNat = 0 from rfl, Nat.zero_mul, Nat.zero_add] at hval
    exact hval
  · have hne : (macPass (d.setWidth 6) limbs).2.toNat ≠ 0 := by simpa [← BitVec.toNat_inj] using hcarry
    have hbyte : ((macPass (d.setWidth 6) limbs).2.setWidth 8).toNat = (macPass (d.setWidth 6) limbs).2.toNat := by
      simp
      omega
    simp only [if_neg hcarry]
    refine ⟨?_, ?_⟩
    · rw [List.head?_cons, ne_eq, Option.some_inj, ← BitVec.toNat_inj, hbyte]
      exact hne
    · rw [← hval, ← macPass_length (d.setWidth 6) limbs, ← hbyte]
      exact valBE_cons _ _

/-- The engine leaves the minimal bytes of the value, digit after digit. -/
theorem engineFromDigits_isNotation {d : List Byte} (h : ∀ x ∈ d, x.toNat ≤ 57) :
    IsNotation 256 (valRadix 58 d) (engineFromDigits d) := by
  induction d using List.reverseRecOn with
  | nil => exact ⟨by simp [engineFromDigits], by simp [engineFromDigits], rfl⟩
  | append_singleton d x ih =>
    rw [valRadix_concat, engineFromDigits, List.foldl_append]
    exact macDigit_isNotation (ih fun y hy => h y (by simp [hy])) (h x (by simp))

/-- Settles O45: a number has one sequence of minimal bytes. -/
theorem multiplyEngineComputesFromDigits : Obligations.MultiplyEngineComputesFromDigits :=
  fun _ h => (engineFromDigits_isNotation h).eq_radixDigits (by omega)

end Sys2Proof.Machine
end

section
/-! SUPPORT. The bus port: which accesses reach what, what a read of a buffer answers and what a write of the input window
stores, and the proofs of the statements about them. -/

namespace Sys2Proof.Machine

/-! What an access reaches. -/

theorem Reg.offset_aligned (r : Reg) : r.offset % 4 = 0 ∧ r.offset < 0x20 := by cases r <;> decide

/-- Every aligned offset of the register window is a register's (spec 10_state.md R23). -/
theorem Reg.exists_offset_eq {o : Nat} (halign : o % 4 = 0) (hlow : o < 0x20) : ∃ r : Reg, r.offset = o := by
  have hindex : o / 4 < 8 := by omega
  obtain ⟨k, rfl⟩ : ∃ k, o = 4 * k := ⟨o / 4, by omega⟩
  rw [Nat.mul_div_cancel_left k (by omega)] at hindex
  exact ⟨[Reg.id, .caps, .ctrl, .cmd, .status, .inLen, .outLen, .errInfo][k], by interval_cases k <;> rfl⟩

section
variable {c : Config} {o w : Nat}

theorem target_reg_iff : (∃ r, target c o w = some (.reg r)) ↔ AdmittedRegister o w := by
  constructor
  · rintro ⟨r, ht⟩
    rcases target_cases ht with ⟨r', -, rfl, rfl⟩ | ⟨i, he, -⟩ | ⟨i, he, -⟩
    · exact ⟨rfl, r'.offset_aligned⟩
    · cases he
    · cases he
  · rintro ⟨rfl, halign, hlow⟩
    obtain ⟨r, rfl⟩ := Reg.exists_offset_eq halign hlow
    exact ⟨r, target_reg c r⟩

theorem target_input_iff : (∃ i, target c o w = some (.input i)) ↔ AdmittedBuffer 0x1000 c.inCap o w := by
  constructor
  · rintro ⟨i, ht⟩
    rcases target_cases ht with ⟨r, he, -⟩ | ⟨i', -, rfl, hfits, hw, halign⟩ | ⟨i', he, -⟩
    · cases he
    · exact ⟨hw, halign, by omega, by omega⟩
    · cases he
  · rintro ⟨hw, halign, hlow, hhigh⟩
    exact ⟨_, target_input hw halign hlow hhigh⟩

theorem target_output_iff : (∃ i, target c o w = some (.output i)) ↔ AdmittedBuffer 0x2000 c.outCap o w := by
  constructor
  · rintro ⟨i, ht⟩
    rcases target_cases ht with ⟨r, he, -⟩ | ⟨i', he, -⟩ | ⟨i', -, rfl, hfits, hw, halign⟩
    · cases he
    · cases he
    · exact ⟨hw, halign, by omega, by omega⟩
  · rintro ⟨hw, halign, hlow, hhigh⟩
    exact ⟨_, target_output hw halign hlow hhigh⟩

/-- An access that reaches anything is an admitted one of a register or of a buffer (spec 20_memory.md R62, R63). -/
theorem target_eq_none_iff : target c o w = none ↔
    ¬(AdmittedRegister o w ∨ AdmittedBuffer 0x1000 c.inCap o w ∨ AdmittedBuffer 0x2000 c.outCap o w) := by
  rw [← target_reg_iff (c := c), ← target_input_iff, ← target_output_iff]
  rcases target c o w with _ | ⟨r⟩ | ⟨i⟩ | ⟨i⟩ <;> simp

end

/-! The step of an access at an offset of the region. -/

section
variable {s : State} {rest : List Event} {o w : Nat} (hr : s.rstN = true) (ho : o < 0x4000)
include hr ho

theorem step_busRead_busError (hp : s.port = .busRead (s.cfg.base + o) w :: rest) (ht : target s.cfg o w = none) :
    step s = .fault .busError := by
  rw [step_cons hp]
  simp [takeEvent, busRead, hr, regionOffset_base ho, ht]

theorem step_busRead_input {i : Nat} (hp : s.port = .busRead (s.cfg.base + o) w :: rest)
    (ht : target s.cfg o w = some (.input i)) :
    step s = .next (State.answer (State.drew { s with port := rest } w) w (lanesValue (s.readBuffer s.inBuf i w))) := by
  rw [step_cons hp]
  simp [takeEvent, busRead, hr, regionOffset_base ho, ht, State.readBuffer]

theorem step_busRead_output {i : Nat} (hp : s.port = .busRead (s.cfg.base + o) w :: rest)
    (ht : target s.cfg o w = some (.output i)) :
    step s = .next (State.answer (State.drew { s with port := rest } w) w (lanesValue (s.readBuffer s.outBuf i w))) := by
  rw [step_cons hp]
  simp [takeEvent, busRead, hr, regionOffset_base ho, ht, State.readBuffer]

/-- Nothing is written where nothing is reached, nor in the output window (spec 20_memory.md R65). -/
theorem step_busWrite_busError {v : Nat} (hp : s.port = .busWrite (s.cfg.base + o) w v :: rest)
    (ht : target s.cfg o w = none ∨ ∃ i, target s.cfg o w = some (.output i)) : step s = .fault .busError := by
  rw [step_cons hp]
  rcases ht with ht | ⟨i, ht⟩ <;> simp [takeEvent, busWrite, hr, regionOffset_base ho, ht]

end

/-- A register's write is no bus error; the accept step alone can stop, for its own reason. -/
theorem writeReg_ne_busError (r : Reg) (v : Word) (s : State) : writeReg r v s ≠ .fault .busError := by
  cases r with
  | cmd =>
    rw [writeReg, accept_eq]
    split
    · nofun
    · split <;> nofun
  | _ => nofun

/-- Settles O46: an access is admitted when it reaches something, and a write is not where it reaches the output
buffer. -/
theorem portAdmitsExactly : Obligations.PortAdmitsExactly := by
  intro s rest o w v hr ho
  refine ⟨fun hp => ⟨fun hadmitted => ?_, fun hnot => step_busRead_busError hr ho hp (target_eq_none_iff.mpr hnot)⟩,
    fun hp => ⟨?_, fun hnot => ?_⟩⟩
  · rcases hadmitted with ⟨rfl, halign, hlow⟩ | hin | hout
    · obtain ⟨r, rfl⟩ := Reg.exists_offset_eq halign hlow
      exact ⟨_, step_readReg r hr hp⟩
    · obtain ⟨i, ht⟩ := target_input_iff.mpr hin
      exact ⟨_, step_busRead_input hr ho hp ht⟩
    · obtain ⟨i, ht⟩ := target_output_iff.mpr hout
      exact ⟨_, step_busRead_output hr ho hp ht⟩
  · rintro hstep (⟨rfl, halign, hlow⟩ | hin)
    · obtain ⟨r, rfl⟩ := Reg.exists_offset_eq halign hlow
      exact writeReg_ne_busError r _ _ ((step_writeReg r hr hp).symm.trans hstep)
    · cases (step_writeInput hr hp hin).symm.trans hstep
  · rw [not_or] at hnot
    obtain ⟨hreg, hin⟩ := hnot
    refine step_busWrite_busError hr ho hp ?_
    rw [target_output_iff, target_eq_none_iff]
    tauto

/-! Reads. -/

/-- `CAPS` holds both capacities, each in its half (spec 10_state.md R24). -/
theorem capsWord_toNat (c : Config) : c.capsWord.toNat = c.outCap * 0x10000 + c.inCap := by
  have := inCap_bounds c
  have := outCap_bounds c
  rw [Config.capsWord, BitVec.toNat_ofNat]
  omega

/-- Settles O47: the step of a register read answers `readReg`, which holds each value. -/
theorem registerReadReturnsItsWord : Obligations.RegisterReadReturnsItsWord := by
  intro s rest o value hr hp hvalue
  obtain ⟨r, rfl, rfl⟩ : ∃ r : Reg, r.offset = o ∧ (s.readReg r).toNat = value := by
    rcases hvalue with ⟨rfl, rfl⟩ | ⟨rfl, rfl⟩ | ⟨rfl, rfl⟩ | ⟨rfl, rfl⟩ | ⟨rfl, rfl⟩ | ⟨rfl, rfl⟩ | ⟨rfl, rfl⟩ | ⟨rfl, rfl⟩
    · exact ⟨.id, rfl, rfl⟩
    · exact ⟨.caps, rfl, capsWord_toNat s.cfg⟩
    · exact ⟨.ctrl, rfl, s.ctrlWord_toNat⟩
    · exact ⟨.cmd, rfl, rfl⟩
    · exact ⟨.status, rfl, rfl⟩
    · exact ⟨.inLen, rfl, rfl⟩
    · exact ⟨.outLen, rfl, rfl⟩
    · exact ⟨.errInfo, rfl, rfl⟩
  exact step_readReg r hr hp

theorem State.readBuffer_length (s : State) (m : Memory) (i w : Nat) : (s.readBuffer m i w).length = w := by
  simp [State.readBuffer]

/-- Lane `j` of a read is the byte at index `i + j`, where there is one (spec 20_memory.md R64, R68). -/
theorem State.readBuffer_lane (s : State) {m : Memory} {i w j : Nat} {x : Byte} (hj : j < w)
    (hx : m.read? (i + j) = some x) : lanesValue (s.readBuffer m i w) / 256 ^ j % 256 = x.toNat := by
  refine lanesValue_lane _ j x ?_
  rw [State.readBuffer, List.getElem?_map, List.getElem?_range hj, Option.map_some, Memory.readOrDraw_of_read? hx]

theorem State.readBuffer_value_lt (s : State) (m : Memory) (i w : Nat) :
    lanesValue (s.readBuffer m i w) < 256 ^ w := by
  simpa only [s.readBuffer_length m i w] using lanesValue_lt (s.readBuffer m i w)

/-- Settles O48: the read answers the lanes of its bytes, drawn where the buffer has none. -/
theorem bufferReadIsLittleEndian : Obligations.BufferReadIsLittleEndian := by
  intro s rest window cap o w m hr hp hbuffer hadmitted
  have hin := inCap_bounds s.cfg
  have hout := outCap_bounds s.cfg
  refine ⟨lanesValue (s.readBuffer m (o - window) w), s.draws + w, ?_, s.readBuffer_value_lt _ _ _,
    fun j x hj hx => s.readBuffer_lane hj hx⟩
  obtain ⟨hw, halign, hlow, hhigh⟩ := hadmitted
  rcases hbuffer with ⟨rfl, rfl, rfl⟩ | ⟨rfl, rfl, rfl⟩
  · exact step_busRead_input hr (by omega) hp (target_input hw halign hlow hhigh)
  · exact step_busRead_output hr (by omega) hp (target_output hw halign hlow hhigh)

/-- Settles O54: a read that answers changes the reply and the draw counter alone. -/
theorem readsHaveNoSideEffect : Obligations.ReadsHaveNoSideEffect := by
  intro s t rest addr w hp h
  rw [step_cons hp] at h
  obtain ⟨n, v, rfl⟩ := busRead_next h
  rfl

/-! Writes of the input window and of its length. -/

theorem State.writeInput_idle {s : State} (i : Nat) (bytes : List Byte) (h : s.busy = false) :
    s.writeInput i bytes = { s with inBuf := s.inBuf.writeBytes i bytes } :=
  if_neg (Bool.eq_false_iff.mp h)

theorem State.writeInLen_idle {s : State} (v : Word) (h : s.busy = false) : s.writeInLen v = { s with inLen := v } :=
  if_neg (Bool.eq_false_iff.mp h)

/-- Lane `j` of the data is its byte `j` (spec 20_memory.md R64). -/
theorem laneBytes_getElem? {w j : Nat} (data : Nat) (hj : j < w) :
    (laneBytes w data)[j]? = some (BitVec.ofNat 8 (data / 256 ^ j % 256)) := by
  have hbyte : BitVec.ofNat 8 (data / 256 ^ j) = BitVec.ofNat 8 (data / 256 ^ j % 256) := by
    apply BitVec.eq_of_toNat_eq
    simp
  rw [laneBytes, List.getElem?_map, List.getElem?_range hj, Option.map_some, hbyte]

/-- Settles O49: the write stores the run of its lanes, and a read finds them inside the run and the old bytes outside. -/
theorem inputWriteStoresItsLanes : Obligations.InputWriteStoresItsLanes := by
  intro s rest o w v hr hidle hp hadmitted
  have hstep := step_writeInput hr hp hadmitted
  refine ⟨_, hstep.trans (congrArg Host.Outcome.next (State.writeInput_idle _ _ hidle)), fun j hj => ?_, fun k hk => ?_⟩
  · rw [Memory.read?_writeBytes, laneBytes_length, if_pos (by omega), Nat.add_sub_cancel_left, laneBytes_getElem? v hj]
  · rw [Memory.read?_writeBytes, laneBytes_length, if_neg (by omega)]

/-- Settles O52: a word holds every value below `2^32`. -/
theorem inputLengthIsStoredAsWritten : Obligations.InputLengthIsStoredAsWritten := by
  intro s rest v hr hidle hv hp
  have hstep := step_writeReg .inLen hr hp
  exact ⟨_, hstep.trans (congrArg Host.Outcome.next (State.writeInLen_idle _ hidle)), (BitVec.toNat_ofNat v 32).trans (Nat.mod_eq_of_lt hv)⟩

end Sys2Proof.Machine
end

section
/-! SUPPORT. `STATUS`, the interrupt output and the race of a command write with a completion, and the proofs of the
statements about them. -/

namespace Sys2Proof.Machine

/-! The fields of `STATUS`. -/

/-- A bit of a word from the quotient by its weight. -/
theorem getLsbD_eq_of_div {w : Word} {k : Nat} {b : Bool} (h : w.toNat / 2 ^ k % 2 = b.toNat) : w.getLsbD k = b := by
  rw [BitVec.getLsbD, Nat.testBit_eq_decide_div_mod_eq, h]
  cases b <;> rfl

/-- `ERR` is 1 exactly when there is an error: no kind has the code 0 (spec 10_state.md R30, 60_exceptions.md R205). -/
theorem State.err_eq_isSome (s : State) : s.err = s.errCode.isSome := by
  unfold State.err State.errCodeField
  split
  case h_1 h => simp [h]
  case h_2 kind h => cases kind <;> simp [h, ErrKind.code]

/-- The four flags and the error code of `STATUS` (spec 10_state.md R27). -/
theorem State.statusWord_fields (s : State) :
    s.statusWord.getLsbD 0 = s.busy ∧ s.statusWord.getLsbD 1 = s.done ∧ s.statusWord.getLsbD 2 = s.err ∧
      s.statusWord.getLsbD 3 = s.wbusy ∧ s.statusWord.toNat / 256 % 16 = s.errCodeField := by
  have hword := s.statusWord_toNat
  have := s.errCodeField_le
  have := s.busy.toNat_lt
  have := s.done.toNat_lt
  have := s.err.toNat_lt
  have := s.wbusy.toNat_lt
  refine ⟨getLsbD_eq_of_div ?_, getLsbD_eq_of_div ?_, getLsbD_eq_of_div ?_, getLsbD_eq_of_div ?_, ?_⟩ <;> omega

theorem step_writeStatus {s : State} {rest : List Event} {v : Nat} (hr : s.rstN = true)
    (hp : s.port = .busWrite (s.cfg.base + 0x010) 4 v :: rest) :
    step s = .next { s with
      done := s.done && decide (v / 2 % 2 = 0)
      wbusy := s.wbusy && decide (v / 8 % 2 = 0)
      reply := none
      port := rest } :=
  (step_writeReg .status hr hp).trans (congrArg Host.Outcome.next (State.writeStatus_ofNat _ v))

/-- Settles O51: the fields of the word a read shows, and the two bits that a write obeys. -/
theorem statusRegisterRule : Obligations.StatusRegisterRule := by
  refine ⟨fun s => ?_, fun s rest v hr hp => step_writeStatus hr hp⟩
  obtain ⟨hbusy, hdone, herr, hwbusy, hcode⟩ := s.statusWord_fields
  refine ⟨hbusy, hdone, herr.trans s.err_eq_isSome, hwbusy, hcode.trans ?_, fun i hi => s.statusWord_reserved hi⟩
  unfold State.errCodeField
  cases s.errCode with
  | none => rfl
  | some kind => cases kind <;> rfl

/-! The interrupt output. -/

/-- Without `DONE` there is no interrupt (spec 60_exceptions.md R210). -/
theorem State.irq_of_not_done {s : State} (h : s.done = false) : s.irq = false ∧ s.done = false :=
  ⟨by rw [State.irq, h, Bool.and_false], h⟩

/-- An accept that answers clears `DONE`. -/
theorem accept_next {v : Word} {s t : State} (h : accept v s = .next t) : t = s.accepted v := by
  rw [accept_eq] at h
  split at h
  · cases h
  · cases h
    rfl

/-- Settles O55: the write of `CTRL` sets `IE` and keeps `DONE`, or is the soft reset; every other event named clears
`DONE`. -/
theorem interruptFollowsEnableAndDone : Obligations.InterruptFollowsEnableAndDone := by
  refine ⟨fun s => Bool.and_eq_true_iff, fun s t rest v hr h => ⟨fun hp => ?_, fun hp hv => ?_, fun hp hidle => ?_⟩,
    fun s t rest hr hp h => ?_⟩
  · obtain ⟨hkeep, -⟩ := controlRegisterRule.2 s rest v hr hp
    refine ⟨fun hv hdone => ?_, fun hv => ?_, fun hv => ?_⟩
    · cases (hkeep (by omega)).symm.trans h
      simp [State.irq, hdone, show v % 2 = 1 by omega]
    · cases (hkeep (by omega)).symm.trans h
      simp [State.irq, show v % 2 = 0 by omega]
    · cases (step_writeCtrl_reset hr hp hv).symm.trans h
      exact State.irq_of_not_done rfl
  · cases (step_writeStatus hr hp).symm.trans h
    exact State.irq_of_not_done (by simp [hv])
  · rw [accept_next ((step_writeCmd_idle hr hidle hp).symm.trans h)]
    exact State.irq_of_not_done rfl
  · cases (step_rise hr hp).symm.trans h
    exact State.irq_of_not_done rfl

/-! A command write and a completion. -/

/-- The accept of an illegal word, or with the input written, is no model fault (spec 60_exceptions.md R201). -/
theorem accept_of_input_written {v : Word} {s : State}
    (h : (decodeWord v).isCommand = false ∨ s.inBuf.written s.inLen.toNat = true) :
    accept v s = .next (s.accepted v) := by
  rcases h with h | h
  · exact accept_of_not_isCommand s h
  · rw [accept_eq, if_neg (by simp [State.acceptFaults, h])]

/-- The step that is a busy engine's turn ends its command and leaves everything outside the record. -/
theorem step_engine_busy {s : State} {rest : List Event} (hr : s.rstN = true) (hb : s.busy = true)
    (hp : s.port = .engine :: rest) : ∃ t, step s = .next t ∧ t.busy = false ∧ t.done = true ∧
      State.SameOutsideRecord { s with port := rest } t := by
  obtain ⟨t, hexec, hend⟩ := exec_ends (decodeWord s.lastCmd) { s with port := rest }
  exact ⟨t, (step_cons hp).trans ((engineTurn_busy (s := { s with port := rest }) hr hb).trans hexec), hend⟩

/-- Settles O56: the write comes first and is ignored, or the completion comes first and the write is accepted. -/
theorem commandWriteRacesCompletion : Obligations.CommandWriteRacesCompletion := by
  intro s rest v hr hb hready
  refine ⟨fun hp => ?_, fun hp => ?_⟩
  · have hwrite := step_ignoredWhileBusy hr hb hp (.inl ⟨rfl, .inl rfl⟩)
    obtain ⟨t, hturn, hbusy, hdone, hframe⟩ :=
      step_engine_busy (s := State.ignoredWhileBusy { s with reply := none, port := .engine :: rest }) hr hb rfl
    exact ⟨t, (run_succ 1 hwrite).trans (run_succ 0 hturn), hframe.wbusy, hbusy, hdone, hframe.lastCmd⟩
  · obtain ⟨t, hturn, hbusy, hdone, hframe⟩ := step_engine_busy hr hb hp
    have hport : t.port = .busWrite (t.cfg.base + 0x00C) 4 v :: rest := by rw [hframe.cfg, hframe.port]
    have hwrite := step_writeCmd_idle (hframe.rstN.trans hr) hbusy hport
    have hwritten : (decodeWord (BitVec.ofNat 32 v)).isCommand = false ∨ t.inBuf.written t.inLen.toNat = true := by
      rwa [hframe.inBuf, hframe.inLen]
    have haccept := accept_of_input_written (s := { t with reply := none, port := rest }) hwritten
    exact ⟨_, (run_succ 1 hturn).trans (run_succ 0 (hwrite.trans haccept)), hframe.wbusy, rfl, rfl, rfl⟩

end Sys2Proof.Machine
end
